-- ==== Sys2Proof/Word.lean ====
section
/-! DEFINITION. The word types of the block: 32-bit host words, 8-bit characters, strings as lists of ASCII codes (00_scope.md R9). -/

namespace Sys2Proof

/-- One host register or one command word (20_memory.md R63, 30_encoding.md R81). -/
abbrev Word := BitVec 32

/-- One ASCII character code (00_scope.md R9). -/
abbrev Byte := BitVec 8

/-- A string is a list of 8-bit ASCII codes (00_scope.md R9). -/
abbrev Str := List Byte

/-- The string with the given characters (00_scope.md R9). -/
def ascii (cs : List Char) : Str := cs.map fun c => BitVec.ofNat 8 c.toNat

end Sys2Proof
end

