-- ==== Sys2Proof/Syntax.lean ====
section
/-! DEFINITION. The commands of the block, one constructor per row of the opcode map (30_encoding.md R88), each with the operand
fields its format names (R83 to R87). -/

namespace Sys2Proof

/-- A command. Operand fields are unsigned integers of their field's width (30_encoding.md R87). -/
inductive Instr where
  /-- NOP, format Z (41_record.md R120). -/
  | nop
  /-- LOAD var, rawopc, format L (41_record.md R121). -/
  | load (var : BitVec 4) (rawopc : BitVec 8)
  /-- XFI fidx, format F0 (40_extraction.md R100). -/
  | xfi (fidx : BitVec 4)
  /-- XFH fidx, mindig, format F (40_extraction.md R101). -/
  | xfh (fidx : BitVec 4) (mindig : BitVec 5)
  /-- XRI start, len, format R0 (40_extraction.md R102). -/
  | xri (start : BitVec 7) (len : BitVec 7)
  /-- XRH start, len, mindig, format R (40_extraction.md R103). -/
  | xrh (start : BitVec 7) (len : BitVec 7) (mindig : BitVec 5)
  /-- ISVALID, format Z (41_record.md R122). -/
  | isvalid
  /-- ISENC, format Z (41_record.md R123). -/
  | isenc
  /-- ISRES, format Z (41_record.md R124). -/
  | isres
  /-- TSTAMP, format Z (41_record.md R125). -/
  | tstamp
  /-- TSLOT, format Z (41_record.md R126). -/
  | tslot
  /-- VARIANT, format Z (41_record.md R127). -/
  | variant
  /-- OPCODE, format Z (41_record.md R128). -/
  | opcode
  /-- ALG, format Z (42_enc_params.md R152). -/
  | alg
  /-- KEYID, format Z (42_enc_params.md R153). -/
  | keyid
  /-- IV, format Z (42_enc_params.md R154). -/
  | iv
  /-- TG, format Z (42_enc_params.md R155). -/
  | tg
  /-- IDS, format Z (41_record.md R129). -/
  | ids
  /-- SUMMARY, format Z (41_record.md R131). -/
  | summary
  deriving DecidableEq, Repr

end Sys2Proof
end

