-- ==== Sys2Proof/WellFormed.lean ====
section
/-! DEFINITION. Which commands are legal encodings. Field widths are carried by the types of the operands; the one check left is
LOAD's variant tag (30_encoding.md R90). -/

namespace Sys2Proof

/-- The command's word is not one of the illegal encodings of 30_encoding.md R90: a LOAD names variant tag 0 or 1. A LOAD with
another tag still decodes (R88, R89) and raises ILLEGAL_COMMAND when it executes (41_record.md R121). -/
def Instr.wellFormed : Instr → Bool
  | .load var _ => decide (var.toNat < 2)
  | .nop | .xfi _ | .xfh _ _ | .xri _ _ | .xrh _ _ _ | .isvalid | .isenc | .isres | .tstamp | .tslot | .variant | .opcode
  | .alg | .keyid | .iv | .tg | .ids | .summary => true

end Sys2Proof
end

