-- ==== Sys2Proof/Decode.lean ====
section
/-! DEFINITION. The opcode map as the spec's own table of masks and matches (30_encoding.md R88), the decoder over it, total on
all words and rejecting by name (R89, R90), and after it the encoder, written from the formats (R82 to R86). -/

namespace Sys2Proof

/-- The rows of the opcode map (30_encoding.md R88), named by their mnemonics. -/
inductive Mnemonic where
  | nop | load | xfi | xfh | xri | xrh | isvalid | isenc | isres | tstamp | tslot | variant | opcode
  | alg | keyid | iv | tg | ids | summary
  deriving DecidableEq, Repr

/-- One row of the opcode map: a word selects it when the word under the mask is the pattern (30_encoding.md R88). -/
structure OpcodeRow where
  name : Mnemonic
  pattern : Word
  mask : Word
  deriving DecidableEq, Repr

/-- Does word w select the row? (30_encoding.md R88) -/
def OpcodeRow.selects (r : OpcodeRow) (w : Word) : Bool := w &&& r.mask == r.pattern

/-- The opcode map, row by row (30_encoding.md R88). -/
def opcodeMap : List OpcodeRow :=
  [ ⟨.nop, 0x00000000, 0xFFFFFFFF⟩, ⟨.load, 0x01000000, 0xFFFF00F0⟩,
    ⟨.xfi, 0x10000000, 0xFFF0FFFF⟩, ⟨.xfh, 0x11000000, 0xFFF0FFE0⟩,
    ⟨.xri, 0x12000000, 0xFF8080FF⟩, ⟨.xrh, 0x13000000, 0xFF8080E0⟩ ] ++
  [ ⟨.isvalid, 0x20000000, 0xFFFFFFFF⟩, ⟨.isenc, 0x21000000, 0xFFFFFFFF⟩, ⟨.isres, 0x22000000, 0xFFFFFFFF⟩,
    ⟨.tstamp, 0x23000000, 0xFFFFFFFF⟩, ⟨.tslot, 0x24000000, 0xFFFFFFFF⟩, ⟨.variant, 0x25000000, 0xFFFFFFFF⟩,
    ⟨.opcode, 0x26000000, 0xFFFFFFFF⟩ ] ++
  [ ⟨.alg, 0x30000000, 0xFFFFFFFF⟩, ⟨.keyid, 0x31000000, 0xFFFFFFFF⟩, ⟨.iv, 0x32000000, 0xFFFFFFFF⟩,
    ⟨.tg, 0x33000000, 0xFFFFFFFF⟩, ⟨.ids, 0x40000000, 0xFFFFFFFF⟩, ⟨.summary, 0x41000000, 0xFFFFFFFF⟩ ]

/-- OP = w[31:24] (30_encoding.md R82). -/
def opField (w : Word) : BitVec 8 := w.extractLsb' 24 8

/-- VAR = w[3:0] (30_encoding.md R84). -/
def varField (w : Word) : BitVec 4 := w.extractLsb' 0 4

/-- RAWOPC = w[15:8] (30_encoding.md R84). -/
def rawopcField (w : Word) : BitVec 8 := w.extractLsb' 8 8

/-- FIDX = w[19:16] (30_encoding.md R85). -/
def fidxField (w : Word) : BitVec 4 := w.extractLsb' 16 4

/-- MINDIG = w[4:0] (30_encoding.md R85, R86). -/
def mindigField (w : Word) : BitVec 5 := w.extractLsb' 0 5

/-- START = w[22:16] (30_encoding.md R86). -/
def startField (w : Word) : BitVec 7 := w.extractLsb' 16 7

/-- LEN = w[14:8] (30_encoding.md R86). -/
def lenField (w : Word) : BitVec 7 := w.extractLsb' 8 7

/-- The command of a row, with the operand fields of w that the row's format names (30_encoding.md R83 to R87). -/
def instrOf (m : Mnemonic) (w : Word) : Instr :=
  match m with
  | .nop => .nop
  | .load => .load (varField w) (rawopcField w)
  | .xfi => .xfi (fidxField w)
  | .xfh => .xfh (fidxField w) (mindigField w)
  | .xri => .xri (startField w) (lenField w)
  | .xrh => .xrh (startField w) (lenField w) (mindigField w)
  | .isvalid => .isvalid
  | .isenc => .isenc
  | .isres => .isres
  | .tstamp => .tstamp
  | .tslot => .tslot
  | .variant => .variant
  | .opcode => .opcode
  | .alg => .alg
  | .keyid => .keyid
  | .iv => .iv
  | .tg => .tg
  | .ids => .ids
  | .summary => .summary

/-- Why a word is no command (30_encoding.md R90). Both raise ILLEGAL_COMMAND when the word is issued. -/
inductive DecodeRefusal where
  /-- The OP value is in no row of the opcode map. -/
  | unassignedOp (op : BitVec 8)
  /-- The OP value has a row, and a bit its format requires to be 0 is 1. -/
  | reservedBits (op : BitVec 8)
  deriving DecidableEq, Repr

/-- Decoding: the one row that w selects, or a refusal by name (30_encoding.md R89, R90). Total on all words. -/
def decode (w : Word) : Except DecodeRefusal Instr :=
  match opcodeMap.find? fun r => r.selects w with
  | some r => .ok (instrOf r.name w)
  | none =>
    if opcodeMap.any fun r => opField r.pattern == opField w then .error (.reservedBits (opField w))
    else .error (.unassignedOp (opField w))

/-- The row an instruction belongs to (30_encoding.md R88). -/
def Instr.mnemonic : Instr → Mnemonic
  | .nop => .nop
  | .load _ _ => .load
  | .xfi _ => .xfi
  | .xfh _ _ => .xfh
  | .xri _ _ => .xri
  | .xrh _ _ _ => .xrh
  | .isvalid => .isvalid
  | .isenc => .isenc
  | .isres => .isres
  | .tstamp => .tstamp
  | .tslot => .tslot
  | .variant => .variant
  | .opcode => .opcode
  | .alg => .alg
  | .keyid => .keyid
  | .iv => .iv
  | .tg => .tg
  | .ids => .ids
  | .summary => .summary

/-- Format Z: OP in [31:24] and zeros (30_encoding.md R83). -/
def formatZ (op : BitVec 8) : Word := op ++ 0#24

/-- Format L: OP, eight zeros, RAWOPC, four zeros, VAR (30_encoding.md R84). -/
def formatL (op : BitVec 8) (rawopc : BitVec 8) (var : BitVec 4) : Word := op ++ 0#8 ++ rawopc ++ 0#4 ++ var

/-- Format F: OP, four zeros, FIDX, eleven zeros, MINDIG; format F0 is format F with MINDIG = 0 (30_encoding.md R85). -/
def formatF (op : BitVec 8) (fidx : BitVec 4) (mindig : BitVec 5) : Word := op ++ 0#4 ++ fidx ++ 0#11 ++ mindig

/-- Format R: OP, a zero, START, a zero, LEN, three zeros, MINDIG; format R0 is format R with MINDIG = 0 (30_encoding.md R86). -/
def formatR (op : BitVec 8) (start len : BitVec 7) (mindig : BitVec 5) : Word :=
  op ++ 0#1 ++ start ++ 0#1 ++ len ++ 0#3 ++ mindig

/-- The word of a command, from the OP column and the formats (30_encoding.md R82 to R88). -/
def encode : Instr → Word
  | .nop => formatZ 0x00
  | .load var rawopc => formatL 0x01 rawopc var
  | .xfi fidx => formatF 0x10 fidx 0
  | .xfh fidx mindig => formatF 0x11 fidx mindig
  | .xri start len => formatR 0x12 start len 0
  | .xrh start len mindig => formatR 0x13 start len mindig
  | .isvalid => formatZ 0x20
  | .isenc => formatZ 0x21
  | .isres => formatZ 0x22
  | .tstamp => formatZ 0x23
  | .tslot => formatZ 0x24
  | .variant => formatZ 0x25
  | .opcode => formatZ 0x26
  | .alg => formatZ 0x30
  | .keyid => formatZ 0x31
  | .iv => formatZ 0x32
  | .tg => formatZ 0x33
  | .ids => formatZ 0x40
  | .summary => formatZ 0x41

/-- The command the decoder reads from a table row's bits, bit 0 the least significant (opcode_table.json). A command is one
32-bit word (30_encoding.md R81), so bits past the 32nd make no command. -/
def decodeTableWord (nbits w : Nat) : Option Instr :=
  if nbits ≤ 32 ∧ w < 2 ^ 32 then
    match decode (BitVec.ofNat 32 w) with
    | .ok i => some i
    | .error _ => none
  else none

end Sys2Proof
end

