-- ==== Sys2Proof/Config.lean ====
section
/-! DEFINITION. What is fixed when a block is built: the parameters of 00_scope.md R6 that a model takes as arguments, and the
constants of the same table. No free value is needed: no rule of the spec leaves a value undefined. -/

namespace Sys2Proof

/-- The identity string of the block (00_scope.md R1). No register holds it. -/
def identity : Str := ascii ['B', 'I', 'P', 'D', '-', 'F', 'L', 'C', '9', '6', '-', 'v', '7']

/-- PLEN, the record length in bits (00_scope.md R6). -/
abbrev plen : Nat := 96

/-- HEX_MAX, the capacity of the hex buffer in characters (00_scope.md R6). -/
abbrev hexMax : Nat := 32

/-- SUM_MAX, the capacity of the summary buffer in characters (00_scope.md R6). -/
abbrev sumMax : Nat := 160

/-- MAX_IDS, the capacity of the identifier list (00_scope.md R6). -/
abbrev maxIds : Nat := 4

/-- The two opcode variants in scope (00_scope.md R2, 10_state.md R30): a closed set, so the VARIANT register never holds a
reserved tag. -/
inductive Variant where
  | unrecognized
  | encParams
  deriving DecidableEq, Repr

/-- The field-map ROM and the parameters of one block (00_scope.md R6, 10_state.md R48, R49). Positions are plain numbers: the
reset self-check, not the type, refuses a position past 95 (70_reset_and_hazards.md R202). -/
structure Config where
  /-- ENC_POS, the payload position of the encrypted flag (10_state.md R35). -/
  encPos : Nat
  /-- RES_POS, the payload position of the reserved-bit flag (10_state.md R36). -/
  resPos : Nat
  /-- The position lists of UNRECOGNIZED, in field order (10_state.md R49); a sound ROM has none. -/
  unrecognizedMap : List (List Nat)
  /-- MAP_ENC, the position lists of ENC_PARAMS, in field order (42_enc_params.md R150). -/
  encParamsMap : List (List Nat)
  /-- DEFAULT_ALG_NAME, the name of algorithm code 0 (42_enc_params.md R158). -/
  defaultAlgName : Str
  deriving DecidableEq, Repr

end Sys2Proof
end

