-- ==== Sys2Proof/Machine/Rom.lean ====
section
/-! DEFINITION. The field-map ROM: its default contents, the lists a variant has, and the reset self-check
(10_state.md R48 to R51, 42_enc_params.md R150, 70_reset_and_hazards.md R202). -/

namespace Sys2Proof.Machine

/-- range(a, n) = [a, a+1, ..., a+n-1] (00_scope.md R9). -/
def rangeList (a n : Nat) : List Nat := List.range' a n

/-- The default field map of ENC_PARAMS: KEY_ID, IV_FIELD, ALGORITHM, DEST_GROUP (42_enc_params.md R150). -/
def defaultEncParamsMap : List (List Nat) := [rangeList 16 8, rangeList 24 32, rangeList 56 8, rangeList 64 8]

/-- The parameters at the values this spec fixes (00_scope.md R6, 42_enc_params.md R150). -/
def defaultConfig : Config where
  encPos := 0
  resPos := 1
  unrecognizedMap := []
  encParamsMap := defaultEncParamsMap
  defaultAlgName := ascii ['D', 'E', 'F', 'A', 'U', 'L', 'T']

/-- The position lists of a variant, in field order (10_state.md R49). -/
def fieldMap (cfg : Config) : Variant → List (List Nat)
  | .unrecognized => cfg.unrecognizedMap
  | .encParams => cfg.encParamsMap

/-- NF(v), the field count of a variant (10_state.md R49). -/
def fieldCount (cfg : Config) (v : Variant) : Nat := (fieldMap cfg v).length

/-- MAP(v, f), the position list of field f (10_state.md R49); used only for f < NF(v). -/
def fieldList (cfg : Config) (v : Variant) (f : Nat) : List Nat := (fieldMap cfg v).getD f []

/-- The inner loop of the self-check: every position of the list is below 96 and not used before, in this list or by the
positions `used` (70_reset_and_hazards.md R202). -/
def checkPositions (used : List Nat) : List Nat → Bool
  | [] => true
  | p :: ps => decide (p < plen) && !used.contains p && checkPositions (p :: used) ps

/-- The loop over the fields of one variant: every list is non-empty and passes the inner loop, and its positions count as used
afterwards (70_reset_and_hazards.md R202). -/
def checkFields (used : List Nat) : List (List Nat) → Bool
  | [] => true
  | l :: ls => !l.isEmpty && checkPositions used l && checkFields (l ++ used) ls

/-- The self-check of one variant: at most 16 fields, none over ENC_POS, RES_POS or another field (70_reset_and_hazards.md R202). -/
def checkVariant (cfg : Config) (v : Variant) : Bool :=
  decide (fieldCount cfg v ≤ 16) && checkFields [cfg.encPos, cfg.resPos] (fieldMap cfg v)

/-- The field-map self-check that reset runs, `ok` of 70_reset_and_hazards.md R202. -/
def selfCheck (cfg : Config) : Bool :=
  decide (cfg.encPos < plen) && decide (cfg.resPos < plen) && !(cfg.encPos == cfg.resPos) &&
  checkVariant cfg .unrecognized && checkVariant cfg .encParams &&
  (fieldCount cfg .encParams == 4) && (fieldCount cfg .unrecognized == 0) &&
  ((fieldMap cfg .encParams).map List.length == [8, 32, 8, 8])

/-- The text `[CRC-ERROR]` (41_record.md R131). -/
def crcErrorText : Str := ascii ['[', 'C', 'R', 'C', '-', 'E', 'R', 'R', 'O', 'R', ']']

/-- What 00_scope.md R6 asks of DEFAULT_ALG_NAME: 1 to 16 printable ASCII characters, without the substring `[CRC-ERROR]`.
The self-check does not look at it (70_reset_and_hazards.md R202). -/
def algNameOk (name : Str) : Bool :=
  decide (1 ≤ name.length) && decide (name.length ≤ 16) && name.all (fun c => decide (0x20 ≤ c.toNat) && decide (c.toNat ≤ 0x7E)) &&
  !(name.tails.any fun t => crcErrorText.isPrefixOf t)

end Sys2Proof.Machine
end

