-- ==== Sys2Proof/Machine/State.lean ====
section
/-! DEFINITION. The state of one block, as plain data, in the groups of 10_state.md R22: input staging, record, results, control and
status, ROM. Two fields more are the model's own: the host's events still to come, and the values its reads returned. -/

namespace Sys2Proof.Machine

/-- The input staging registers, written by the host alone (10_state.md R23, R24, R25). Bits [31:2] of IN_META are reserved
and read 0, so they are not stored. -/
structure Staging where
  inP0 : Word
  inP1 : Word
  inP2 : Word
  inValid : Bool
  inTimeslot : BitVec 1
  inTsLo : Word
  inTsHi : Word
  deriving DecidableEq, Repr

/-- The record registers, written by LOAD alone (10_state.md R26 to R31, R33). The payload's position i is bit 95 - i, so the
register is the integer V of 00_scope.md R7. -/
structure Record where
  payload : BitVec 96
  valid : Bool
  timestamp : BitVec 64
  timeslot : BitVec 1
  variant : Variant
  rawOpcode : BitVec 8
  deriving DecidableEq, Repr

/-- One entry of the identifier list: IDS_TYPE[k] and IDS_VALUE[k] (10_state.md R42). -/
structure Ident where
  kind : Byte
  value : Word
  deriving DecidableEq, Repr

/-- The result registers, written by commands alone (10_state.md R38 to R43). The bits of ALG, HEX_LEN, IDS_COUNT and SUM_LEN that
read 0 are not stored. -/
structure Results where
  result : BitVec 96
  hexLen : BitVec 6
  hexChar : Vector Byte 32
  algCode : Byte
  algUnknown : Bool
  tg : Word
  idsCount : BitVec 3
  ids : Vector Ident 4
  sumLen : BitVec 8
  sumChar : Vector Byte 160
  deriving DecidableEq, Repr

/-- The fault codes 0 to 5 (60_exceptions.md R170); codes 6 to 15 are never written (10_state.md R45). -/
inductive FaultCode where
  | none
  | fieldMapMisconfig
  | illegalCommand
  | noRecord
  | variantMismatch
  | range
  deriving DecidableEq, Repr

/-- The fields of STATUS (10_state.md R45); its reserved bits read 0 and are not stored. -/
structure Status where
  romOk : Bool
  loaded : Bool
  fault : Bool
  faultCode : FaultCode
  rv : Bool
  hv : Bool
  av : Bool
  tv : Bool
  dv : Bool
  sv : Bool
  deriving DecidableEq, Repr

/-- What the host can do to the block: one register access, with its width in bits and its byte offset, or the reset input
(20_memory.md R63, R64, 70_reset_and_hazards.md R200). An access of another width than 32 carries no usable value. -/
inductive HostEvent where
  | read (width off : Nat)
  | write (width off : Nat) (value : Word)
  | reset
  deriving DecidableEq, Repr

/-- The whole state of the machine. -/
structure State where
  /-- The ROM and the parameters of this block: fixed when it is built, written by nothing (10_state.md R50; log entry 1). -/
  cfg : Config
  staging : Staging
  record : Record
  results : Results
  status : Status
  /-- FAULT_CMD (10_state.md R46). -/
  faultCmd : Word
  /-- MODEL'S OWN: the host's events still to come, in program order (10_state.md R20, R21; log entry 2). -/
  pending : List HostEvent
  /-- MODEL'S OWN: the values returned by the host's reads since the last reset, oldest first (70_reset_and_hazards.md R211; log
  entry 3). -/
  reads : List Word
  deriving DecidableEq, Repr

/-- Where a step stops. The faults of 60_exceptions.md are not here: raising one is a next state (R174). -/
inductive Fault where
  /-- Raised by `withRom`, in a command about to read a field-map ROM that the reset self-check refuses. Safe: with such a ROM reset
  leaves FAULT = 1 and every command is ignored (60_exceptions.md R176), so no run from reset reaches it (log entry 5). -/
  | romRejected
  /-- Raised by `writeSummary`, for a summary of more than 160 characters. Safe: only a DEFAULT_ALG_NAME longer than 16
  characters, which 00_scope.md R6 forbids, gives one (41_record.md R132; log entry 6). -/
  | summaryTooLong
  deriving DecidableEq, Repr

/-- Why the model gives a step no meaning. -/
inductive Refusal where
  /-- A command without a meaning yet. Safe: the step stops. No arm of exec raises it. -/
  | notModelled (mnemonic : String)
  /-- Raised by `hostAccess` for an access that is not 32 bits wide, not at a multiple of 4 or not inside 0x000 to 0xFFF. Safe: the
  spec puts it outside the interface and asks a model to refuse it (20_memory.md R63; log entry 7). -/
  | outsideInterface
  deriving DecidableEq, Repr

/-- The outcome of a step of this machine. -/
abbrev StepResult := Host.Outcome State Fault Refusal

/-- Staging after reset (10_state.md R53). -/
def Staging.reset : Staging := ⟨0, 0, 0, false, 0, 0, 0⟩

/-- The record registers after reset (10_state.md R53). -/
def Record.reset : Record := ⟨0, false, 0, 0, .unrecognized, 0⟩

/-- The result registers after reset (10_state.md R53). -/
def Results.reset : Results := ⟨0, 0, Vector.replicate 32 0, 0, false, 0, 0, Vector.replicate 4 ⟨0, 0⟩, 0, Vector.replicate 160 0⟩

/-- STATUS after reset, given the outcome of the self-check (10_state.md R53, 70_reset_and_hazards.md R202). -/
def Status.reset (ok : Bool) : Status :=
  ⟨ok, false, !ok, if ok then .none else .fieldMapMisconfig, false, false, false, false, false, false⟩

/-- The state after a reset of the block with the given ROM and parameters (70_reset_and_hazards.md R200), with no host event to
come and none read. -/
def State.resetWith (cfg : Config) : State where
  cfg := cfg
  staging := Staging.reset
  record := Record.reset
  results := Results.reset
  status := Status.reset (selfCheck cfg)
  faultCmd := 0
  pending := []
  reads := []

/-- The machine right after reset, with the parameters at the spec's default values (10_state.md R53, 70_reset_and_hazards.md
R203). -/
def State.reset : State := State.resetWith defaultConfig

end Sys2Proof.Machine
end

