-- ==== Sys2Proof/Machine/Operands.lean ====
section
/-! DEFINITION. What a command's operands name: payload positions, position lists and ranges, and the value packed from them
(00_scope.md R7, R13, 20_memory.md R61, R62). -/

namespace Sys2Proof.Machine

/-- BitRead(i) = PAYLOAD⟨i⟩: position 0 is the most significant bit (00_scope.md R7). Positions 96 and above do not exist
(20_memory.md R60); no command reads one, since lists come from a checked ROM or a checked range. -/
def bitRead (payload : BitVec 96) (i : Nat) : Bool := payload.getMsbD i

/-- extract(P, L): the first position listed gives the most significant result bit (00_scope.md R13). -/
def extract (payload : BitVec 96) : List Nat → Nat
  | [] => 0
  | p :: ps => (bitRead payload p).toNat * 2 ^ ps.length + extract payload ps

/-- The range of XRI and XRH is refused: empty, or past position 95, with the sum taken without wrap (40_extraction.md R102). -/
def rangeBad (start len : BitVec 7) : Bool := len.toNat == 0 || decide (plen < start.toNat + len.toNat)

/-- The positions of a range operand (20_memory.md R62). -/
def rangePositions (start len : BitVec 7) : List Nat := rangeList start.toNat len.toNat

/-- All 96 positions (41_record.md R131). -/
def allPositions : List Nat := rangeList 0 plen

/-- The variant a LOAD's VAR operand names; tags 2 to 15 are reserved (10_state.md R30). -/
def variantOfTag (var : BitVec 4) : Option Variant :=
  if var = 0 then some .unrecognized else if var = 1 then some .encParams else none

/-- The 4-bit tag of a variant (10_state.md R30). -/
def variantTag : Variant → BitVec 4
  | .unrecognized => 0
  | .encParams => 1

/-- The staged payload: position i is IN_P(i div 32)[31 - (i mod 32)] (10_state.md R23). -/
def stagedPayload (st : Staging) : BitVec 96 := st.inP0 ++ st.inP1 ++ st.inP2

/-- The record that LOAD builds from the input registers and its operands (41_record.md R121). -/
def stagedRecord (st : Staging) (v : Variant) (rawopc : BitVec 8) : Record where
  payload := stagedPayload st
  valid := st.inValid
  timestamp := st.inTsHi ++ st.inTsLo
  timeslot := st.inTimeslot
  variant := v
  rawOpcode := rawopc

end Sys2Proof.Machine
end

