-- ==== Sys2Proof/Machine/Flags.lean ====
section
/-! DEFINITION. The flags: the record's derived flags, the STATUS word with its result valid bits, and the output fault_o
(10_state.md R34 to R37, R44, R45, R47). -/

namespace Sys2Proof.Machine

/-- ENC = PAYLOAD⟨ENC_POS⟩, derived and not stored (10_state.md R35). -/
def encFlag (cfg : Config) (r : Record) : Bool := bitRead r.payload cfg.encPos

/-- RES = PAYLOAD⟨RES_POS⟩, derived and not stored (10_state.md R36). -/
def resFlag (cfg : Config) (r : Record) : Bool := bitRead r.payload cfg.resPos

/-- The number of a fault code (60_exceptions.md R170). -/
def faultCodeBits : FaultCode → BitVec 4
  | .none => 0
  | .fieldMapMisconfig => 1
  | .illegalCommand => 2
  | .noRecord => 3
  | .variantMismatch => 4
  | .range => 5

/-- STATUS as the host reads it: bit 0 ROM_OK, 1 LOADED, 2 FAULT, 3 zero, 7:4 FAULT_CODE, 8 RV, 9 HV, 10 AV, 11 TV, 12 DV, 13 SV,
31:14 zero (10_state.md R45). -/
def statusWord (st : Status) : Word :=
  0#18 ++ BitVec.ofBool st.sv ++ BitVec.ofBool st.dv ++ BitVec.ofBool st.tv ++ BitVec.ofBool st.av ++ BitVec.ofBool st.hv ++
  BitVec.ofBool st.rv ++ faultCodeBits st.faultCode ++ 0#1 ++ BitVec.ofBool st.fault ++ BitVec.ofBool st.loaded ++
  BitVec.ofBool st.romOk

/-- fault_o, a level equal to STATUS.FAULT at every point (10_state.md R47). -/
def faultOut (s : State) : Bool := s.status.fault

/-- A successful LOAD sets LOADED and clears the six result valid bits (10_state.md R32, R44, 41_record.md R121). -/
def statusAfterLoad (st : Status) : Status :=
  { st with loaded := true, rv := false, hv := false, av := false, tv := false, dv := false, sv := false }

/-- Fault entry's part of STATUS (60_exceptions.md R174). -/
def statusAfterFault (c : FaultCode) (st : Status) : Status := { st with fault := true, faultCode := c }

end Sys2Proof.Machine
end

