-- ==== Sys2Proof/Machine/Text.lean ====
section
/-! DEFINITION. Numerals and strings: hexadecimal and decimal rendering and the joining of parts (00_scope.md R9, R11, R12). -/

namespace Sys2Proof.Machine

/-- The digits of v in the given base, least significant first, with `fuel` the number of digits that may be produced. -/
def digitsRev (base : Nat) : Nat → Nat → List Nat
  | 0, _ => []
  | fuel + 1, v => if v < base then [v] else v % base :: digitsRev base fuel (v / base)

/-- The digits of v in the given base (2 or more), most significant first, without leading zeros; 0 has the one digit 0
(00_scope.md R11 `sig`, R12). -/
def digits (base v : Nat) : List Nat := (digitsRev base (v.log2 + 1) v).reverse

/-- Digits 0 to 9 are ASCII 0x30 to 0x39; digits 10 to 15 are uppercase A to F, 0x41 to 0x46 (00_scope.md R11). -/
def digitChar (d : Nat) : Byte := if d < 10 then BitVec.ofNat 8 (0x30 + d) else BitVec.ofNat 8 (0x41 + (d - 10))

/-- sig(v), the number of base-16 digits of v without leading zeros, with sig(0) = 1 (00_scope.md R11). -/
def sig (v : Nat) : Nat := (digits 16 v).length

/-- hex(v, d): the base-16 digits of v, padded on the left with the digit 0 to at least d digits (00_scope.md R11). -/
def hex (v d : Nat) : Str := List.replicate (d - sig v) (digitChar 0) ++ (digits 16 v).map digitChar

/-- dec(v): the base-10 digits of v, no leading zeros, no sign (00_scope.md R12). -/
def dec (v : Nat) : Str := (digits 10 v).map digitChar

/-- join(" ", parts): the first part, then each later one preceded by one space character (00_scope.md R9). -/
def joinSpace : List Str → Str
  | [] => []
  | s :: ss => s ++ ss.flatMap fun t => 0x20#8 :: t

end Sys2Proof.Machine
end

