-- ==== Sys2Proof/Machine/Ops.lean ====
section
/-! DEFINITION. The operations the meanings share: fault entry, reset, the checks a command makes before it writes any state, and the
writes of the result groups (10_state.md R38 to R44, 60_exceptions.md R174, R175, 70_reset_and_hazards.md R200). -/

namespace Sys2Proof.Machine

/-- Fault entry: the command word w raises code c. FAULT, FAULT_CODE and FAULT_CMD are written and nothing else (60_exceptions.md
R174). -/
def raiseFault (c : FaultCode) (w : Word) (s : State) : State :=
  { s with status := statusAfterFault c s.status, faultCmd := w }

/-- The one way out of a fault, the reset input: every piece of state takes its reset value and the self-check runs, as one step; the
ROM is unchanged (70_reset_and_hazards.md R200, 60_exceptions.md R176). The host's further events stay; a new run's observation
begins (R211). -/
def resetBlock (s : State) : State := { State.resetWith s.cfg with pending := s.pending }

/-- A command that reads the record raises NO_RECORD while LOADED = 0 (10_state.md R32, 60_exceptions.md R170). -/
def withRecord (w : Word) (s : State) (k : StepResult) : StepResult :=
  if s.status.loaded then k else .next (raiseFault .noRecord w s)

/-- XFI and XFH raise VARIANT_MISMATCH when FIDX >= NF(VARIANT) (40_extraction.md R100). -/
def withField (w : Word) (s : State) (fidx : BitVec 4) (k : StepResult) : StepResult :=
  if fieldCount s.cfg s.record.variant ≤ fidx.toNat then .next (raiseFault .variantMismatch w s) else k

/-- ALG, KEYID, IV and TG raise VARIANT_MISMATCH unless VARIANT = ENC_PARAMS (42_enc_params.md R159). -/
def withEncParams (w : Word) (s : State) (k : StepResult) : StepResult :=
  if s.record.variant = .encParams then k else .next (raiseFault .variantMismatch w s)

/-- XRI and XRH raise RANGE for an empty range or one past position 95 (40_extraction.md R102). -/
def withRange (w : Word) (s : State) (start len : BitVec 7) (k : StepResult) : StepResult :=
  if rangeBad start len then .next (raiseFault .range w s) else k

/-- DESIGN CHOICE (log entry 5): a command about to read the ROM stops when the ROM is one the reset self-check refuses. No run
reaches this: a failed self-check stops every command (40_extraction.md R107). -/
def withRom (s : State) (k : StepResult) : StepResult :=
  if selfCheck s.cfg then k else .fault .romRejected

/-- RESULT <- zext_96(v); STATUS.RV <- 1 (10_state.md R38, R44). -/
def writeResult (v : BitVec 96) (s : State) : State :=
  { s with results := { s.results with result := v }, status := { s.status with rv := true } }

/-- A string in a character buffer: its characters, then 0x00 to the end (10_state.md R39, R43). -/
def padded (n : Nat) (str : Str) : Vector Byte n := Vector.ofFn fun j => str.getD j.val 0

/-- WriteHex(str), for a string of at most 32 characters (40_extraction.md R104). -/
def writeHex (str : Str) (s : State) : State :=
  { s with
    results := { s.results with hexLen := BitVec.ofNat 6 str.length, hexChar := padded 32 str }
    status := { s.status with hv := true } }

/-- ALG <- (c != 0) in [8] and c in [7:0]; STATUS.AV <- 1 (42_enc_params.md R152). -/
def writeAlg (c : Byte) (s : State) : State :=
  { s with
    results := { s.results with algCode := c, algUnknown := decide (c ≠ 0) }
    status := { s.status with av := true } }

/-- TG <- v; STATUS.TV <- 1 (42_enc_params.md R155). -/
def writeTg (v : Word) (s : State) : State :=
  { s with results := { s.results with tg := v }, status := { s.status with tv := true } }

/-- The identifier list: its length, its entries in order, type 0 and value 0 after them; STATUS.DV <- 1 (41_record.md R129). -/
def writeIds (l : List Ident) (s : State) : State :=
  { s with
    results := { s.results with idsCount := BitVec.ofNat 3 l.length, ids := Vector.ofFn fun k => l.getD k.val ⟨0, 0⟩ }
    status := { s.status with dv := true } }

/-- The summary buffer: the string's length, its characters, 0x00 to the end; STATUS.SV <- 1 (41_record.md R131). -/
def storeSummary (str : Str) (s : State) : State :=
  { s with
    results := { s.results with sumLen := BitVec.ofNat 8 str.length, sumChar := padded 160 str }
    status := { s.status with sv := true } }

/-- The summary is stored when it fits SUM_MAX, as every summary with a legal DEFAULT_ALG_NAME does (41_record.md R132). DESIGN CHOICE
(log entry 6): a longer one stops. -/
def writeSummary (str : Str) (s : State) : StepResult :=
  if str.length ≤ sumMax then .next (storeSummary str s) else .fault .summaryTooLong

/-- A successful LOAD: the record registers change all together, LOADED is set, the valid bits are cleared and the result registers
keep their contents (41_record.md R121, 10_state.md R33, R44). -/
def loadRecord (r : Record) (s : State) : State :=
  { s with record := r, status := statusAfterLoad s.status }

end Sys2Proof.Machine
end

