-- ==== Sys2Proof/Machine/Variants.lean ====
section
/-! DEFINITION. What each variant contributes: its fields, its identifier list and its summary (41_record.md R129 to R133,
42_enc_params.md R151 to R158). Every value here is a function of the record and the ROM alone (10_state.md R52). -/

namespace Sys2Proof.Machine

/-- Field(f) = extract(PAYLOAD, MAP(ENC_PARAMS, f)) (42_enc_params.md R151). -/
def encField (cfg : Config) (r : Record) (f : Nat) : Nat := extract r.payload (fieldList cfg .encParams f)

/-- The key id, field 0, zero-extended (42_enc_params.md R153). -/
def keyIdOf (cfg : Config) (r : Record) : BitVec 96 := BitVec.ofNat 96 (encField cfg r 0)

/-- The initialization vector, field 1, as hex of at least 8 digits (42_enc_params.md R154). -/
def ivTextOf (cfg : Config) (r : Record) : Str := hex (encField cfg r 1) 8

/-- The algorithm code, field 2 (42_enc_params.md R152). -/
def algCodeOf (cfg : Config) (r : Record) : Byte := BitVec.ofNat 8 (encField cfg r 2)

/-- The talkgroup, field 3, zero-extended (42_enc_params.md R155). -/
def talkgroupOf (cfg : Config) (r : Record) : Word := BitVec.ofNat 32 (encField cfg r 3)

/-- The type code of a talkgroup identifier (10_state.md R42). -/
def talkgroupKind : Byte := 1

/-- Ids(VARIANT): empty for UNRECOGNIZED, the talkgroup for ENC_PARAMS (41_record.md R129, 42_enc_params.md R156). -/
def idsOf (cfg : Config) (r : Record) : List Ident :=
  match r.variant with
  | .unrecognized => []
  | .encParams => [⟨talkgroupKind, talkgroupOf cfg r⟩]

/-- AlgName(c): DEFAULT_ALG_NAME for code 0, otherwise `UNKNOWN(c)` (42_enc_params.md R158). -/
def algName (cfg : Config) (c : Nat) : Str :=
  if c = 0 then cfg.defaultAlgName else ascii ['U', 'N', 'K', 'N', 'O', 'W', 'N', '('] ++ dec c ++ ascii [')']

/-- Dump(VARIANT), the variant's parts of the summary (41_record.md R133, 42_enc_params.md R157). -/
def dumpOf (cfg : Config) (r : Record) : List Str :=
  match r.variant with
  | .unrecognized =>
    [ ascii ['U', 'N', 'R', 'E', 'C', 'O', 'G', 'N', 'I', 'Z', 'E', 'D'],
      ascii ['O', 'P', 'C', 'O', 'D', 'E', ':'] ++ dec r.rawOpcode.toNat ]
  | .encParams =>
    [ ascii ['E', 'N', 'C', 'R', 'Y', 'P', 'T', 'I', 'O', 'N', ' ', 'P', 'A', 'R', 'A', 'M', 'E', 'T', 'E', 'R', 'S'],
      ascii ['K', 'E', 'Y', ':'] ++ dec (encField cfg r 0),
      ascii ['A', 'L', 'G', ':'] ++ algName cfg (encField cfg r 2),
      ascii ['I', 'V', '(', 'P', 'R', 'O', 'B', 'A', 'B', 'L', 'E', ')', ':'] ++ hex (encField cfg r 1) 8,
      ascii ['T', 'G', ':'] ++ dec (encField cfg r 3) ]

/-- The text `*ENCRYPTED*` (41_record.md R131). -/
def encryptedText : Str := ascii ['*', 'E', 'N', 'C', 'R', 'Y', 'P', 'T', 'E', 'D', '*']

/-- The text `*RESERVED-BIT*` (41_record.md R131). -/
def reservedBitText : Str := ascii ['*', 'R', 'E', 'S', 'E', 'R', 'V', 'E', 'D', '-', 'B', 'I', 'T', '*']

/-- The last part of the summary: `MSG:` and the payload as 24 hex digits (41_record.md R131). -/
def msgPart (r : Record) : Str := ascii ['M', 'S', 'G', ':'] ++ hex (extract r.payload allPositions) 24

/-- The parts of the summary, in order (41_record.md R131). -/
def summaryParts (cfg : Config) (r : Record) : List Str :=
  (if r.valid then [] else [crcErrorText]) ++ (if encFlag cfg r then [encryptedText] else []) ++
  (if resFlag cfg r then [reservedBitText] else []) ++ dumpOf cfg r ++ [msgPart r]

/-- The diagnostic summary of a record (41_record.md R131). -/
def summaryText (cfg : Config) (r : Record) : Str := joinSpace (summaryParts cfg r)

end Sys2Proof.Machine
end

