-- ==== Sys2Proof/Machine/EncParams.lean ====
section
/-! DEFINITION. The commands of the ENC_PARAMS variant: ALG, KEYID, IV, TG (42_enc_params.md). -/

namespace Sys2Proof.Machine

/-- ALG: the algorithm code, and whether it is unknown (42_enc_params.md R152). -/
def execAlg (s : State) : StepResult :=
  withRecord (encode .alg) s <|
  withEncParams (encode .alg) s <|
  withRom s <|
  .next (writeAlg (algCodeOf s.cfg s.record) s)

/-- KEYID: the key id (42_enc_params.md R153). -/
def execKeyid (s : State) : StepResult :=
  withRecord (encode .keyid) s <|
  withEncParams (encode .keyid) s <|
  withRom s <|
  .next (writeResult (keyIdOf s.cfg s.record) s)

/-- IV: the initialization vector as hex (42_enc_params.md R154). -/
def execIv (s : State) : StepResult :=
  withRecord (encode .iv) s <|
  withEncParams (encode .iv) s <|
  withRom s <|
  .next (writeHex (ivTextOf s.cfg s.record) s)

/-- TG: the talkgroup (42_enc_params.md R155). -/
def execTg (s : State) : StepResult :=
  withRecord (encode .tg) s <|
  withEncParams (encode .tg) s <|
  withRom s <|
  .next (writeTg (talkgroupOf s.cfg s.record) s)

end Sys2Proof.Machine
end

