-- ==== Sys2Proof/Machine/Extraction.lean ====
section
/-! DEFINITION. The extraction commands XFI, XFH, XRI, XRH (40_extraction.md). Each checks its faults in the order of
60_exceptions.md R175 before it writes any state. -/

namespace Sys2Proof.Machine

/-- XFI: a field of the loaded variant as an integer (40_extraction.md R100). -/
def execXfi (fidx : BitVec 4) (s : State) : StepResult :=
  withRecord (encode (.xfi fidx)) s <|
  withField (encode (.xfi fidx)) s fidx <|
  withRom s <|
  .next (writeResult (BitVec.ofNat 96 (extract s.record.payload (fieldList s.cfg s.record.variant fidx.toNat))) s)

/-- XFH: a field of the loaded variant as hex (40_extraction.md R101). -/
def execXfh (fidx : BitVec 4) (mindig : BitVec 5) (s : State) : StepResult :=
  withRecord (encode (.xfh fidx mindig)) s <|
  withField (encode (.xfh fidx mindig)) s fidx <|
  withRom s <|
  .next (writeHex (hex (extract s.record.payload (fieldList s.cfg s.record.variant fidx.toNat)) mindig.toNat) s)

/-- XRI: a contiguous range as an integer (40_extraction.md R102). -/
def execXri (start len : BitVec 7) (s : State) : StepResult :=
  withRecord (encode (.xri start len)) s <|
  withRange (encode (.xri start len)) s start len <|
  .next (writeResult (BitVec.ofNat 96 (extract s.record.payload (rangePositions start len))) s)

/-- XRH: a contiguous range as hex (40_extraction.md R103). -/
def execXrh (start len : BitVec 7) (mindig : BitVec 5) (s : State) : StepResult :=
  withRecord (encode (.xrh start len mindig)) s <|
  withRange (encode (.xrh start len mindig)) s start len <|
  .next (writeHex (hex (extract s.record.payload (rangePositions start len)) mindig.toNat) s)

end Sys2Proof.Machine
end

