-- ==== Sys2Proof/Machine/RecordCommands.lean ====
section
/-! DEFINITION. The record commands NOP, LOAD, ISVALID, ISENC, ISRES, TSTAMP, TSLOT, VARIANT, OPCODE, IDS, SUMMARY
(41_record.md). -/

namespace Sys2Proof.Machine

/-- NOP: no state changes (41_record.md R120). -/
def execNop (s : State) : StepResult := .next s

/-- LOAD: the record from the input registers; a reserved variant tag raises ILLEGAL_COMMAND (41_record.md R121). -/
def execLoad (var : BitVec 4) (rawopc : BitVec 8) (s : State) : StepResult :=
  match variantOfTag var with
  | none => .next (raiseFault .illegalCommand (encode (.load var rawopc)) s)
  | some v => .next (loadRecord (stagedRecord s.staging v rawopc) s)

/-- ISVALID: RESULT <- VALID (41_record.md R122). -/
def execIsvalid (s : State) : StepResult :=
  withRecord (encode .isvalid) s <|
  .next (writeResult ((BitVec.ofBool s.record.valid).setWidth 96) s)

/-- ISENC: RESULT <- PAYLOAD⟨ENC_POS⟩ (41_record.md R123). -/
def execIsenc (s : State) : StepResult :=
  withRecord (encode .isenc) s <|
  withRom s <|
  .next (writeResult ((BitVec.ofBool (encFlag s.cfg s.record)).setWidth 96) s)

/-- ISRES: RESULT <- PAYLOAD⟨RES_POS⟩ (41_record.md R124). -/
def execIsres (s : State) : StepResult :=
  withRecord (encode .isres) s <|
  withRom s <|
  .next (writeResult ((BitVec.ofBool (resFlag s.cfg s.record)).setWidth 96) s)

/-- TSTAMP: RESULT <- TIMESTAMP (41_record.md R125). -/
def execTstamp (s : State) : StepResult :=
  withRecord (encode .tstamp) s <|
  .next (writeResult (s.record.timestamp.setWidth 96) s)

/-- TSLOT: RESULT <- TIMESLOT (41_record.md R126). -/
def execTslot (s : State) : StepResult :=
  withRecord (encode .tslot) s <|
  .next (writeResult (s.record.timeslot.setWidth 96) s)

/-- VARIANT: RESULT <- VARIANT (41_record.md R127). -/
def execVariant (s : State) : StepResult :=
  withRecord (encode .variant) s <|
  .next (writeResult ((variantTag s.record.variant).setWidth 96) s)

/-- OPCODE: RESULT <- RAW_OPCODE (41_record.md R128). -/
def execOpcode (s : State) : StepResult :=
  withRecord (encode .opcode) s <|
  .next (writeResult (s.record.rawOpcode.setWidth 96) s)

/-- IDS: the identifier list of the record's variant (41_record.md R129). -/
def execIds (s : State) : StepResult :=
  withRecord (encode .ids) s <|
  withRom s <|
  .next (writeIds (idsOf s.cfg s.record) s)

/-- SUMMARY: the diagnostic summary (41_record.md R131). -/
def execSummary (s : State) : StepResult :=
  withRecord (encode .summary) s <|
  withRom s <|
  writeSummary (summaryText s.cfg s.record) s

end Sys2Proof.Machine
end

