-- ==== Sys2Proof/Machine/Dispatch.lean ====
section
/-! DEFINITION. One arm per command: the operation named in the opcode map's rule column (30_encoding.md R80, R88). It is called
only with FAULT = 0: issuing a command while FAULT = 1 does nothing (Machine/HostBus.lean, issueCommand). -/

namespace Sys2Proof.Machine

def exec (i : Instr) (s : State) : Host.Outcome State Fault Refusal :=
  match i with
  | .nop => Sys2Proof.Machine.execNop s
  | .load var rawopc => Sys2Proof.Machine.execLoad var rawopc s
  | .xfi fidx => Sys2Proof.Machine.execXfi fidx s
  | .xfh fidx mindig => Sys2Proof.Machine.execXfh fidx mindig s
  | .xri start len => Sys2Proof.Machine.execXri start len s
  | .xrh start len mindig => Sys2Proof.Machine.execXrh start len mindig s
  | .isvalid => Sys2Proof.Machine.execIsvalid s
  | .isenc => Sys2Proof.Machine.execIsenc s
  | .isres => Sys2Proof.Machine.execIsres s
  | .tstamp => Sys2Proof.Machine.execTstamp s
  | .tslot => Sys2Proof.Machine.execTslot s
  | .variant => Sys2Proof.Machine.execVariant s
  | .opcode => Sys2Proof.Machine.execOpcode s
  | .alg => Sys2Proof.Machine.execAlg s
  | .keyid => Sys2Proof.Machine.execKeyid s
  | .iv => Sys2Proof.Machine.execIv s
  | .tg => Sys2Proof.Machine.execTg s
  | .ids => Sys2Proof.Machine.execIds s
  | .summary => Sys2Proof.Machine.execSummary s

end Sys2Proof.Machine
end

