-- ==== Sys2Proof/Machine/HostBus.lean ====
section
/-! DEFINITION. The host's side of the block: the register map, reads and writes, command issue, and one host event as one step of the
block (20_memory.md R63 to R66, 30_encoding.md R80). -/

namespace Sys2Proof.Machine

/-- The registers of the host register map (20_memory.md R64). -/
inductive HostReg where
  | cmd | status | faultCmd
  | inP0 | inP1 | inP2 | inMeta | inTsLo | inTsHi
  | resultLo | resultMid | resultHi
  | hexLen | hexChar (w : Fin 8)
  | alg | tg | idsCount | idsType (k : Fin 4) | idsValue (k : Fin 4)
  | sumLen | sumChar (w : Fin 40)
  deriving DecidableEq, Repr

/-- The byte offset of a register (20_memory.md R64). -/
def regOffset : HostReg → Nat
  | .cmd => 0x000
  | .status => 0x004
  | .faultCmd => 0x008
  | .inP0 => 0x010
  | .inP1 => 0x014
  | .inP2 => 0x018
  | .inMeta => 0x01C
  | .inTsLo => 0x020
  | .inTsHi => 0x024
  | .resultLo => 0x030
  | .resultMid => 0x034
  | .resultHi => 0x038
  | .hexLen => 0x03C
  | .hexChar w => 0x040 + 4 * w.val
  | .alg => 0x060
  | .tg => 0x064
  | .idsCount => 0x068
  | .idsType k => 0x070 + 8 * k.val
  | .idsValue k => 0x074 + 8 * k.val
  | .sumLen => 0x0FC
  | .sumChar w => 0x100 + 4 * w.val

/-- The registers in the order of the map (20_memory.md R64). -/
def hostRegs : List HostReg :=
  [.cmd, .status, .faultCmd, .inP0, .inP1, .inP2, .inMeta, .inTsLo, .inTsHi, .resultLo, .resultMid, .resultHi, .hexLen] ++
  (List.finRange 8).map .hexChar ++ [.alg, .tg, .idsCount] ++
  (List.finRange 4).flatMap (fun k => [.idsType k, .idsValue k]) ++ [.sumLen] ++ (List.finRange 40).map .sumChar

/-- The register at a byte offset, if the map lists one there (20_memory.md R64). -/
def regAt (off : Nat) : Option HostReg := hostRegs.find? fun r => regOffset r == off

/-- Word w of a character buffer: characters 4w to 4w+3, the first in bits [31:24] (10_state.md R39, R43, 20_memory.md R67). -/
def charWord {n : Nat} (v : Vector Byte n) (w : Nat) : Word :=
  v.getD (4 * w) 0 ++ v.getD (4 * w + 1) 0 ++ v.getD (4 * w + 2) 0 ++ v.getD (4 * w + 3) 0

/-- What a read of a register returns; CMD reads 0 (20_memory.md R64, R65). -/
def readReg (s : State) : HostReg → Word
  | .cmd => 0
  | .status => statusWord s.status
  | .faultCmd => s.faultCmd
  | .inP0 => s.staging.inP0
  | .inP1 => s.staging.inP1
  | .inP2 => s.staging.inP2
  | .inMeta => 0#30 ++ s.staging.inTimeslot ++ BitVec.ofBool s.staging.inValid
  | .inTsLo => s.staging.inTsLo
  | .inTsHi => s.staging.inTsHi
  | .resultLo => s.results.result.extractLsb' 0 32
  | .resultMid => s.results.result.extractLsb' 32 32
  | .resultHi => s.results.result.extractLsb' 64 32
  | .hexLen => s.results.hexLen.setWidth 32
  | .hexChar w => charWord s.results.hexChar w.val
  | .alg => 0#23 ++ BitVec.ofBool s.results.algUnknown ++ s.results.algCode
  | .tg => s.results.tg
  | .idsCount => s.results.idsCount.setWidth 32
  | .idsType k => s.results.ids[k].kind.setWidth 32
  | .idsValue k => s.results.ids[k].value
  | .sumLen => s.results.sumLen.setWidth 32
  | .sumChar w => charWord s.results.sumChar w.val

/-- HostRead(off): an offset the map does not list reads 0 (20_memory.md R65). -/
def hostRead (s : State) (off : Nat) : Word :=
  match regAt off with
  | some r => readReg s r
  | none => 0

/-- The command word w is issued: ignored while FAULT = 1, ILLEGAL_COMMAND if it decodes to nothing, else executed at once
(30_encoding.md R80). -/
def issueCommand (w : Word) (s : State) : StepResult :=
  if s.status.fault then .next s
  else
    match decode w with
    | .error _ => .next (raiseFault .illegalCommand w s)
    | .ok i => exec i s

/-- A write to an RW register stores the word; IN_META keeps bits 0 and 1. A write to any other register but CMD is ignored
(20_memory.md R65, R66). -/
def stageWrite (v : Word) (st : Staging) : HostReg → Staging
  | .inP0 => { st with inP0 := v }
  | .inP1 => { st with inP1 := v }
  | .inP2 => { st with inP2 := v }
  | .inMeta => { st with inValid := v.getLsbD 0, inTimeslot := v.extractLsb' 1 1 }
  | .inTsLo => { st with inTsLo := v }
  | .inTsHi => { st with inTsHi := v }
  | .cmd | .status | .faultCmd | .resultLo | .resultMid | .resultHi | .hexLen | .hexChar _ | .alg | .tg | .idsCount
  | .idsType _ | .idsValue _ | .sumLen | .sumChar _ => st

/-- HostWrite(off, v): a write to CMD issues a command; an offset the map does not list ignores the write (20_memory.md R64, R65,
R66). -/
def hostWrite (off : Nat) (v : Word) (s : State) : StepResult :=
  match regAt off with
  | some .cmd => issueCommand v s
  | some r => .next { s with staging := stageWrite v s.staging r }
  | none => .next s

/-- An access the interface has: 32 bits wide, at a multiple of 4 inside 0x000 to 0xFFF (20_memory.md R60, R63). -/
def accessOk (width off : Nat) : Bool := width == 32 && off % 4 == 0 && decide (off < 0x1000)

/-- One host event. A read returns the register's value and changes no state of the block; the value joins the run's observation
(20_memory.md R65, 70_reset_and_hazards.md R211). An access outside the interface has no step (20_memory.md R63). -/
def hostAccess (e : HostEvent) (s : State) : StepResult :=
  match e with
  | .read width off =>
    if accessOk width off then .next { s with reads := s.reads ++ [hostRead s off] } else .refused .outsideInterface
  | .write width off v => if accessOk width off then hostWrite off v s else .refused .outsideInterface
  | .reset => .next (resetBlock s)

/-- The next event of the host, if there is one; otherwise the block is idle and holds its state (60_exceptions.md R185,
70_reset_and_hazards.md R201). -/
def takeEvent (s : State) : StepResult :=
  match s.pending with
  | [] => .next s
  | e :: es => hostAccess e { s with pending := es }

/-- The host's next event is the write of the command word w to CMD (20_memory.md R74, 30_encoding.md R80; log entry 11). -/
def issueNext (w : Word) (s : State) : State := { s with pending := .write 32 (regOffset .cmd) w :: s.pending }

end Sys2Proof.Machine
end

