-- ==== Sys2Proof/Machine/Step.lean ====
section
/-! DEFINITION. One step of the machine: the host's next event, performed to completion (10_state.md R20, R21, 20_memory.md R71). -/

namespace Sys2Proof.Machine

/-- One step: the host's next event (10_state.md R20, 70_reset_and_hazards.md R210). -/
def step (s : State) : Host.Outcome State Fault Refusal := takeEvent s

/-- s with the write of this word to CMD as the host's next event. A command is one 32-bit word (30_encoding.md R81), so nbits is
not needed. -/
def State.withFetchWord (s : State) (_nbits w : Nat) : State := issueNext (BitVec.ofNat 32 w) s

end Sys2Proof.Machine
end

