-- ==== Sys2Proof/Machine/Assembler.lean ====
section
/-! DEFINITION. The assembler notation of commands: one command per line, operand names, and the pseudo-instructions
(30_encoding.md R94, R95). It has no effect of its own (92_eei_decisions.md D29). -/

namespace Sys2Proof.Machine

/-- An operand as written: a number, or a name (30_encoding.md R94). -/
inductive AsmOperand where
  | num (n : Nat)
  | name (cs : List Char)
  deriving DecidableEq, Repr

/-- A command name as written: a mnemonic of the opcode map, or a pseudo-instruction (30_encoding.md R88, R95). -/
inductive AsmName where
  | core (m : Mnemonic)
  | bit | rawint | rawhex | field
  deriving DecidableEq, Repr

/-- The spelling of the command names (30_encoding.md R88, R95). -/
def asmNames : List (List Char × AsmName) :=
  [ (['N', 'O', 'P'], .core .nop), (['L', 'O', 'A', 'D'], .core .load), (['X', 'F', 'I'], .core .xfi),
    (['X', 'F', 'H'], .core .xfh), (['X', 'R', 'I'], .core .xri), (['X', 'R', 'H'], .core .xrh) ] ++
  [ (['I', 'S', 'V', 'A', 'L', 'I', 'D'], .core .isvalid), (['I', 'S', 'E', 'N', 'C'], .core .isenc),
    (['I', 'S', 'R', 'E', 'S'], .core .isres), (['T', 'S', 'T', 'A', 'M', 'P'], .core .tstamp),
    (['T', 'S', 'L', 'O', 'T'], .core .tslot), (['V', 'A', 'R', 'I', 'A', 'N', 'T'], .core .variant),
    (['O', 'P', 'C', 'O', 'D', 'E'], .core .opcode) ] ++
  [ (['A', 'L', 'G'], .core .alg), (['K', 'E', 'Y', 'I', 'D'], .core .keyid), (['I', 'V'], .core .iv), (['T', 'G'], .core .tg),
    (['I', 'D', 'S'], .core .ids), (['S', 'U', 'M', 'M', 'A', 'R', 'Y'], .core .summary) ] ++
  [ (['B', 'I', 'T'], .bit), (['R', 'A', 'W', 'I', 'N', 'T'], .rawint), (['R', 'A', 'W', 'H', 'E', 'X'], .rawhex),
    (['F', 'I', 'E', 'L', 'D'], .field) ]

/-- The operand names of LOAD's var and of the field index (30_encoding.md R94). -/
def varNames : List (List Char × Nat) :=
  [ (['U', 'N', 'R', 'E', 'C', 'O', 'G', 'N', 'I', 'Z', 'E', 'D'], 0), (['E', 'N', 'C', '_', 'P', 'A', 'R', 'A', 'M', 'S'], 1) ]

/-- The names of ENC_PARAMS' field indexes (30_encoding.md R94, 42_enc_params.md R150). -/
def fidxNames : List (List Char × Nat) :=
  [ (['K', 'E', 'Y', '_', 'I', 'D'], 0), (['I', 'V', '_', 'F', 'I', 'E', 'L', 'D'], 1),
    (['A', 'L', 'G', 'O', 'R', 'I', 'T', 'H', 'M'], 2), (['D', 'E', 'S', 'T', '_', 'G', 'R', 'O', 'U', 'P'], 3) ]

/-- An operand in a field of n bits: a number or one of the given names. One that does not fit has no encoding (30_encoding.md R94). -/
def asmField (names : List (List Char × Nat)) (n : Nat) (o : AsmOperand) : Option (BitVec n) :=
  match o with
  | .num v => if v < 2 ^ n then some (BitVec.ofNat n v) else none
  | .name cs => (names.lookup cs).map (BitVec.ofNat n)

/-- The command of a name and its operands, in the operand order of its format; the pseudo-instructions expand to one command
each (30_encoding.md R94, R95). -/
def asmInstr (c : AsmName) (ops : List AsmOperand) : Option Instr :=
  match c, ops with
  | .core .load, [v, r] => do return .load (← asmField varNames 4 v) (← asmField [] 8 r)
  | .core .xfi, [f] => do return .xfi (← asmField fidxNames 4 f)
  | .core .xfh, [f, d] => do return .xfh (← asmField fidxNames 4 f) (← asmField [] 5 d)
  | .core .xri, [a, n] => do return .xri (← asmField [] 7 a) (← asmField [] 7 n)
  | .core .xrh, [a, n, d] => do return .xrh (← asmField [] 7 a) (← asmField [] 7 n) (← asmField [] 5 d)
  | .core .nop, [] => some .nop
  | .core .isvalid, [] => some .isvalid
  | .core .isenc, [] => some .isenc
  | .core .isres, [] => some .isres
  | .core .tstamp, [] => some .tstamp
  | .core .tslot, [] => some .tslot
  | .core .variant, [] => some .variant
  | .core .opcode, [] => some .opcode
  | .core .alg, [] => some .alg
  | .core .keyid, [] => some .keyid
  | .core .iv, [] => some .iv
  | .core .tg, [] => some .tg
  | .core .ids, [] => some .ids
  | .core .summary, [] => some .summary
  | .bit, [p] => do return .xri (← asmField [] 7 p) 1
  | .rawint, [] => some (.xri 0 96)
  | .rawhex, [] => some (.xrh 0 96 24)
  | .field, [f] => do return .xfi (← asmField fidxNames 4 f)
  | _, _ => none

/-- A blank, which may stand around a token (DESIGN CHOICE, log entry 13: 30_encoding.md R94 says nothing of blanks). -/
def isBlank (c : Char) : Bool := c == ' ' || c == '\t'

/-- The characters without the blanks at both ends. -/
def trimBlanks (cs : List Char) : List Char := ((cs.dropWhile isBlank).reverse.dropWhile isBlank).reverse

/-- The value of a digit in base 10 or 16. -/
def charDigit (base : Nat) (c : Char) : Option Nat :=
  let v := if '0' ≤ c && c ≤ '9' then c.toNat - 48
    else if 'A' ≤ c && c ≤ 'F' then c.toNat - 55
    else if 'a' ≤ c && c ≤ 'f' then c.toNat - 87
    else base
  if v < base then some v else none

/-- A non-empty numeral in the given base. -/
def asmNumeral (base : Nat) (cs : List Char) : Option Nat :=
  if cs.isEmpty then none
  else cs.foldl (fun acc c => do return base * (← acc) + (← charDigit base c)) (some 0)

/-- An operand: decimal or `0x` hexadecimal, otherwise a name (30_encoding.md R94). -/
def asmOperand (cs : List Char) : Option AsmOperand :=
  match cs with
  | [] => none
  | '0' :: 'x' :: rest => (asmNumeral 16 rest).map .num
  | c :: rest => if '0' ≤ c && c ≤ '9' then (asmNumeral 10 (c :: rest)).map .num else some (.name (c :: rest))

/-- The pieces of a list between commas. -/
def splitCommas : List Char → List (List Char)
  | [] => [[]]
  | c :: cs =>
    match splitCommas cs with
    | [] => [[c]]
    | p :: ps => if c = ',' then [] :: p :: ps else (c :: p) :: ps

/-- One line: the mnemonic, then its operands separated by commas, then an optional comment after `;` (30_encoding.md R94). `none`
is an assembly error. -/
def assembleLine (line : List Char) : Option Word :=
  let code := trimBlanks (line.takeWhile (· ≠ ';'))
  let name := code.takeWhile fun c => !isBlank c
  let rest := trimBlanks (code.dropWhile fun c => !isBlank c)
  let pieces := if rest.isEmpty then [] else splitCommas rest
  do
    let c ← asmNames.lookup name
    let ops ← pieces.mapM fun p => asmOperand (trimBlanks p)
    return encode (← asmInstr c ops)

end Sys2Proof.Machine
end

