-- ==== Sys2Proof/Safety.lean ====
section
/-! DEFINITION. The terms claims are stated in: what a ROM, a parameter set, a word and a state must satisfy, what a command leaves
unchanged, and the reading of a numeral back into its value. -/

namespace Sys2Proof.Machine

/-- The invariants of a field-map ROM, said without the self-check's loop (10_state.md R51, 70_reset_and_hazards.md R202). -/
structure RomSound (cfg : Config) : Prop where
  encPos_lt : cfg.encPos < 96
  resPos_lt : cfg.resPos < 96
  flags_differ : cfg.encPos ≠ cfg.resPos
  unrecognized_empty : cfg.unrecognizedMap = []
  enc_widths : cfg.encParamsMap.map List.length = [8, 32, 8, 8]
  positions_lt : ∀ l ∈ cfg.encParamsMap, ∀ p ∈ l, p < 96
  flags_not_named : ∀ l ∈ cfg.encParamsMap, cfg.encPos ∉ l ∧ cfg.resPos ∉ l
  no_repeat : ∀ l ∈ cfg.encParamsMap, l.Nodup
  no_overlap : cfg.encParamsMap.Pairwise fun l m => ∀ p ∈ l, p ∉ m

/-- The parameters of a block the spec describes: a ROM that passes the self-check and a legal DEFAULT_ALG_NAME (00_scope.md R6). -/
def LegalConfig (cfg : Config) : Prop := selfCheck cfg = true ∧ algNameOk cfg.defaultAlgName = true

/-- The bits of a word that the format of its OP requires to be 0 (30_encoding.md R83 to R86); for an OP in the opcode map. -/
def mustBeZero (op : Nat) : Word :=
  if op = 0x01 then 0x00FF00F0
  else if op = 0x10 then 0x00F0FFFF
  else if op = 0x11 then 0x00F0FFE0
  else if op = 0x12 then 0x008080FF
  else if op = 0x13 then 0x008080E0
  else 0x00FFFFFF

/-- OP values that no row of the opcode map has (30_encoding.md R90). -/
def UnassignedOp (op : Nat) : Prop :=
  (0x02 ≤ op ∧ op ≤ 0x0F) ∨ (0x14 ≤ op ∧ op ≤ 0x1F) ∨ (0x27 ≤ op ∧ op ≤ 0x2F) ∨ (0x34 ≤ op ∧ op ≤ 0x3F) ∨ (0x42 ≤ op ∧ op ≤ 0xFF)

/-- The illegal words: an unassigned OP, a 1 in a bit the format requires to be 0, or a LOAD with VAR from 2 to 15 (30_encoding.md
R90). -/
def IllegalEncoding (w : Word) : Prop :=
  let op := (opField w).toNat
  UnassignedOp op ∨ w &&& mustBeZero op ≠ 0 ∨ (op = 0x01 ∧ 2 ≤ (varField w).toNat)

/-- The commands that read the record: all but NOP and LOAD (60_exceptions.md R170, R180). -/
def readsRecord : Instr → Bool
  | .nop | .load _ _ => false
  | .xfi _ | .xfh _ _ | .xri _ _ | .xrh _ _ _ | .isvalid | .isenc | .isres | .tstamp | .tslot | .variant | .opcode
  | .alg | .keyid | .iv | .tg | .ids | .summary => true

/-- The cause of VARIANT_MISMATCH (60_exceptions.md R170). -/
def variantMismatches (cfg : Config) (v : Variant) : Instr → Bool
  | .xfi f | .xfh f _ => decide (fieldCount cfg v ≤ f.toNat)
  | .alg | .keyid | .iv | .tg => decide (v ≠ .encParams)
  | .nop | .load _ _ | .xri _ _ | .xrh _ _ _ | .isvalid | .isenc | .isres | .tstamp | .tslot | .variant | .opcode
  | .ids | .summary => false

/-- The cause of RANGE (60_exceptions.md R170). -/
def rangeRefused : Instr → Bool
  | .xri a n | .xrh a n _ => decide (n.toNat = 0 ∨ 96 < a.toNat + n.toNat)
  | .nop | .load _ _ | .xfi _ | .xfh _ _ | .isvalid | .isenc | .isres | .tstamp | .tslot | .variant | .opcode
  | .alg | .keyid | .iv | .tg | .ids | .summary => false

/-- From s to t only RESULT and RV were written, RV to 1. -/
def OnlyResultWritten (s t : State) : Prop :=
  t = { s with results := { s.results with result := t.results.result }, status := { s.status with rv := true } }

/-- From s to t only the hex buffer and HV were written, HV to 1. -/
def OnlyHexWritten (s t : State) : Prop :=
  t = { s with results := { s.results with hexLen := t.results.hexLen, hexChar := t.results.hexChar },
               status := { s.status with hv := true } }

/-- From s to t only the ALG register and AV were written, AV to 1. -/
def OnlyAlgWritten (s t : State) : Prop :=
  t = { s with results := { s.results with algCode := t.results.algCode, algUnknown := t.results.algUnknown },
               status := { s.status with av := true } }

/-- From s to t only the TG register and TV were written, TV to 1. -/
def OnlyTgWritten (s t : State) : Prop :=
  t = { s with results := { s.results with tg := t.results.tg }, status := { s.status with tv := true } }

/-- From s to t only the identifier list and DV were written, DV to 1. -/
def OnlyIdsWritten (s t : State) : Prop :=
  t = { s with results := { s.results with idsCount := t.results.idsCount, ids := t.results.ids },
               status := { s.status with dv := true } }

/-- From s to t only the summary buffer and SV were written, SV to 1. -/
def OnlySummaryWritten (s t : State) : Prop :=
  t = { s with results := { s.results with sumLen := t.results.sumLen, sumChar := t.results.sumChar },
               status := { s.status with sv := true } }

/-- A length register and a character buffer hold the string: its length, its characters, then 0x00 (10_state.md R39, R43). -/
def HoldsText {n : Nat} (len : Nat) (chars : Vector Byte n) (str : Str) : Prop :=
  str.length ≤ n ∧ len = str.length ∧ chars.toList = str ++ List.replicate (n - str.length) 0

/-- The string in the hex buffer, characters 0 to HEX_LEN - 1 (10_state.md R39). -/
def hexString (s : State) : Str := s.results.hexChar.toList.take s.results.hexLen.toNat

/-- The value of one digit character, 0 to 9 or A to F (00_scope.md R11). -/
def digitValue (c : Byte) : Nat := if c.toNat < 0x41 then c.toNat - 0x30 else c.toNat - 0x41 + 10

/-- A string read as a number in the given base, most significant digit first (00_scope.md R11, R12). -/
def parseNumeral (base : Nat) (str : Str) : Nat := str.foldl (fun acc c => acc * base + digitValue c) 0

/-- The characters of a numeral in the given base: 0 to 9, and in base 16 also uppercase A to F (00_scope.md R11, R12). -/
def IsDigitChar (base : Nat) (c : Byte) : Prop :=
  (0x30 ≤ c.toNat ∧ c.toNat ≤ 0x39 ∨ 0x41 ≤ c.toNat ∧ c.toNat ≤ 0x46) ∧ digitValue c < base

/-- What holds of every state a block can reach, whatever its ROM and whatever the host does. -/
structure Inv (s : State) : Prop where
  /-- ROM_OK is the self-check's answer (70_reset_and_hazards.md R202). -/
  rom_ok : s.status.romOk = selfCheck s.cfg
  /-- FAULT_CODE is 0 exactly while FAULT = 0 (10_state.md R45). -/
  code_iff : s.status.fault = false ↔ s.status.faultCode = .none
  /-- FAULT_CMD is 0 while FAULT = 0 (10_state.md R46). -/
  cmd_zero : s.status.fault = false → s.faultCmd = 0
  /-- A bad ROM is code 1, and code 1 is a bad ROM (60_exceptions.md R170). -/
  misconfig_iff : s.status.faultCode = .fieldMapMisconfig ↔ s.status.romOk = false
  /-- With a bad ROM the fault is the reset's, whose FAULT_CMD is 0, and nothing is ever loaded (10_state.md R46, 60_exceptions.md R176). -/
  bad_rom : s.status.romOk = false → s.faultCmd = 0 ∧ s.status.loaded = false
  /-- Before the first LOAD the record, the result registers and their valid bits have their reset values (10_state.md R32, R53). -/
  not_loaded : s.status.loaded = false →
    s.record = Record.reset ∧ s.results = Results.reset ∧ s.status.rv = false ∧ s.status.hv = false ∧ s.status.av = false ∧
    s.status.tv = false ∧ s.status.dv = false ∧ s.status.sv = false
  /-- The hex buffer holds a string of at most 31 characters, then zeros (10_state.md R39, 40_extraction.md R104). -/
  hex_buffer : ∃ str : Str, str.length ≤ 31 ∧ HoldsText s.results.hexLen.toNat s.results.hexChar str
  /-- The summary buffer holds a string of at most 160 characters, then zeros (10_state.md R43). -/
  sum_buffer : ∃ str : Str, HoldsText s.results.sumLen.toNat s.results.sumChar str
  /-- The identifier list holds at most 4 entries, all talkgroups, then zeros (10_state.md R42). -/
  ids_list : ∃ l : List Ident, l.length ≤ 4 ∧ (∀ e ∈ l, e.kind = 1) ∧ s.results.idsCount.toNat = l.length ∧
    s.results.ids.toList = l ++ List.replicate (4 - l.length) ⟨0, 0⟩
  /-- TG is below 256 (10_state.md R41). -/
  tg_lt : s.results.tg.toNat < 256
  /-- ALG_UNKNOWN is 1 exactly when the code is not 0 (42_enc_params.md R152). -/
  alg_unknown : s.results.algUnknown = decide (s.results.algCode ≠ 0)

/-- A set result valid bit says that its register group holds a value computed from the CURRENT record (10_state.md R44): some
command that writes the group, executed now, would from any other contents of the group make exactly this state. -/
structure ValidBitsCurrent (s : State) : Prop where
  rv : s.status.rv = true → ∃ i, ∀ x,
    exec i { s with results := { s.results with result := x }, status := { s.status with rv := false } } = .next s
  hv : s.status.hv = true → ∃ i, ∀ n v,
    exec i { s with results := { s.results with hexLen := n, hexChar := v }, status := { s.status with hv := false } } = .next s
  av : s.status.av = true → ∀ c u,
    exec .alg { s with results := { s.results with algCode := c, algUnknown := u }, status := { s.status with av := false } } = .next s
  tv : s.status.tv = true → ∀ x,
    exec .tg { s with results := { s.results with tg := x }, status := { s.status with tv := false } } = .next s
  dv : s.status.dv = true → ∀ n l,
    exec .ids { s with results := { s.results with idsCount := n, ids := l }, status := { s.status with dv := false } } = .next s
  sv : s.status.sv = true → ∀ n v,
    exec .summary { s with results := { s.results with sumLen := n, sumChar := v }, status := { s.status with sv := false } } = .next s

/-- A host event of the interface: an aligned 32-bit access inside 0x000 to 0xFFF, or a reset (20_memory.md R63, R64). -/
def LegalEvent : HostEvent → Prop
  | .read width off | .write width off _ => width = 32 ∧ off % 4 = 0 ∧ off < 0x1000
  | .reset => True

end Sys2Proof.Machine
end

