-- ==== Sys2Proof/Certificates/Slice0/Obligations.lean ====
section
/-! DEFINITION. The statements for the provers, from the numbered rules of spec/. In every statement a fault of the block (60_exceptions.md)
is a NEXT state, built by raiseFault, whose own statement is FaultEntryIsPrecise. -/

open Sys2Proof Sys2Proof.Machine Host

/-! ### Encoding -/

/-- Decoding the word of a command gives the command back, with every operand at every value (30_encoding.md R82 to R88). -/
def Obligations.DecodeOfEncode : Prop := ∀ i : Instr, decode (encode i) = .ok i

/-- A word that decodes is the word of its command: no bit of a word is dropped (30_encoding.md R82, R88). So FAULT_CMD, written
with `encode`, records the word that was issued. -/
def Obligations.EncodeOfDecode : Prop := ∀ (w : Word) (i : Instr), decode w = .ok i → encode i = w

/-- 30_encoding.md R89: decode answers with a row exactly when the word selects it, no word selects two rows, the OP values are distinct
and every mask covers w[31:24]. -/
def Obligations.DecodeSelectsTheOneRow : Prop :=
  (∀ (w : Word) (i : Instr), decode w = .ok i ↔ ∃ r ∈ opcodeMap, w &&& r.mask = r.pattern ∧ i = instrOf r.name w) ∧
  (∀ w : Word, (∀ r ∈ opcodeMap, w &&& r.mask ≠ r.pattern) ↔ ∃ e, decode w = .error e) ∧
  (∀ (w : Word), ∀ r ∈ opcodeMap, ∀ r' ∈ opcodeMap, w &&& r.mask = r.pattern → w &&& r'.mask = r'.pattern → r = r') ∧
  (opcodeMap.map fun r => opField r.pattern).Nodup ∧
  ∀ r ∈ opcodeMap, opField r.mask = 0xFF

/-- 30_encoding.md R90: issuing an illegal word raises ILLEGAL_COMMAND, and every other word is a legal command. -/
def Obligations.IllegalWordsRaiseIllegalCommand : Prop :=
  (∀ (w : Word) (s : State), s.status.fault = false → IllegalEncoding w →
    issueCommand w s = .next (raiseFault .illegalCommand w s)) ∧
  ∀ w : Word, ¬ IllegalEncoding w → ∃ i, decode w = .ok i ∧ i.wellFormed = true

/-- Words written out from the formats of 30_encoding.md R83 to R86, one family after the other. -/
def Obligations.WrittenOutWordsDecode : Prop :=
  decode 0x00000000 = .ok .nop ∧ decode 0x01002A01 = .ok (.load 1 0x2A) ∧ decode 0x10030000 = .ok (.xfi 3) ∧
  decode 0x11010008 = .ok (.xfh 1 8) ∧ decode 0x12400800 = .ok (.xri 64 8) ∧ decode 0x13006018 = .ok (.xrh 0 96 24) ∧
  decode 0x25000000 = .ok .variant ∧ decode 0x31000000 = .ok .keyid ∧ decode 0x41000000 = .ok .summary ∧
  decode 0x01000010 = .error (.reservedBits 0x01) ∧ decode 0x42000000 = .error (.unassignedOp 0x42)

/-- 30_encoding.md R80: a write of w to CMD is ignored while FAULT = 1, raises ILLEGAL_COMMAND when w decodes to nothing, and otherwise
executes the decoded command at once; the step does nothing else but take the event off the host's list (the model's own carrier of host
events, log entry 2). -/
def Obligations.StepRunsTheDecodedCommand : Prop :=
  ∀ (s : State) (w : Word) (rest : List HostEvent), s.pending = .write 32 0 w :: rest →
    (s.status.fault = true → step s = .next { s with pending := rest }) ∧
    (s.status.fault = false → ∀ e, decode w = .error e →
      step s = .next (raiseFault .illegalCommand w { s with pending := rest })) ∧
    (s.status.fault = false → ∀ i, decode w = .ok i → step s = exec i { s with pending := rest })

/-! ### Notation: payload positions, extraction, numerals -/

/-- 00_scope.md R7: position 0 is the most significant bit of the payload read as one integer, and BitRead(i) is position i. -/
def Obligations.PayloadIsReadMsbFirst : Prop :=
  ∀ p : BitVec 96,
    p.toNat = ∑ i ∈ Finset.range 96, (bitRead p i).toNat * 2 ^ (95 - i) ∧ extract p allPositions = p.toNat

/-- 00_scope.md R13: extract is the weighted sum of the listed positions, first position most significant, of width len(L). -/
def Obligations.ExtractIsTheWeightedSum : Prop :=
  ∀ (p : BitVec 96) (l : List Nat), l ≠ [] → (∀ q ∈ l, q < 96) →
    extract p l = ∑ k ∈ Finset.range l.length, (bitRead p (l.getD k 0)).toNat * 2 ^ (l.length - 1 - k) ∧
    extract p l < 2 ^ l.length

/-- 00_scope.md R11: hex(v, d) has length max(d, sig(v)), where sig counts base-16 digits without leading zeros and sig(0) = 1;
its characters are 0 to 9 and uppercase A to F; what precedes the sig(v) digits is zeros; and it parses back to v. -/
def Obligations.HexHasLengthDigitsAndValue : Prop :=
  ∀ v d : Nat,
    (∃ n : Nat, n = (if v = 0 then 1 else Nat.log 16 v + 1) ∧ (hex v d).length = max d n ∧
      ∀ c ∈ (hex v d).take (max d n - n), c = 0x30) ∧
    (∀ c ∈ hex v d, IsDigitChar 16 c) ∧ parseNumeral 16 (hex v d) = v

/-- 00_scope.md R12: dec(v) has base-10 digits, parses back to v, has no leading zero, and dec(0) is "0". -/
def Obligations.DecHasDigitsAndValue : Prop :=
  ∀ v : Nat, (∀ c ∈ dec v, IsDigitChar 10 c) ∧ parseNumeral 10 (dec v) = v ∧ (v ≠ 0 → (dec v).head? ≠ some 0x30) ∧
    dec 0 = [0x30]

/-- A contiguous range of the payload is a slice of the payload integer: the extractor is a bit-range selector. -/
def Obligations.RangeExtractionIsASlice : Prop :=
  ∀ (p : BitVec 96) (a n : Nat), a + n ≤ 96 → extract p (rangeList a n) = p.toNat / 2 ^ (96 - (a + n)) % 2 ^ n

/-! ### Extraction commands -/

/-- 40_extraction.md R104: WriteHex writes the length, the characters and zeros after them, sets HV and nothing else; and every string a
command passes has at most 31 characters. -/
def Obligations.WriteHexFillsTheBuffer : Prop :=
  (∀ (s : State) (str : Str), str.length ≤ 32 →
    HoldsText (writeHex str s).results.hexLen.toNat (writeHex str s).results.hexChar str ∧ OnlyHexWritten s (writeHex str s)) ∧
  ∀ (v d : Nat), v < 2 ^ 96 → d ≤ 31 → (hex v d).length ≤ 31

/-- 40_extraction.md R100: XFI's encoding, its two faults, and its result, which is not truncated. The field map is one the self-check
accepted (R107). -/
def Obligations.XfiExtractsTheField : Prop :=
  (∀ w : Word, w &&& 0xFFF0FFFF = 0x10000000 → decode w = .ok (.xfi (w.extractLsb' 16 4))) ∧
  ∀ (s : State) (f : BitVec 4), selfCheck s.cfg = true →
    (s.status.loaded = false → exec (.xfi f) s = .next (raiseFault .noRecord (encode (.xfi f)) s)) ∧
    (s.status.loaded = true → fieldCount s.cfg s.record.variant ≤ f.toNat →
      exec (.xfi f) s = .next (raiseFault .variantMismatch (encode (.xfi f)) s)) ∧
    (s.status.loaded = true → f.toNat < fieldCount s.cfg s.record.variant →
      ∃ t, exec (.xfi f) s = .next t ∧
        t.results.result.toNat = extract s.record.payload (fieldList s.cfg s.record.variant f.toNat) ∧ OnlyResultWritten s t)

/-- 40_extraction.md R101: XFH's encoding, its two faults, and the string it leaves in the hex buffer. -/
def Obligations.XfhRendersTheField : Prop :=
  (∀ w : Word, w &&& 0xFFF0FFE0 = 0x11000000 → decode w = .ok (.xfh (w.extractLsb' 16 4) (w.extractLsb' 0 5))) ∧
  ∀ (s : State) (f : BitVec 4) (d : BitVec 5), selfCheck s.cfg = true →
    (s.status.loaded = false → exec (.xfh f d) s = .next (raiseFault .noRecord (encode (.xfh f d)) s)) ∧
    (s.status.loaded = true → fieldCount s.cfg s.record.variant ≤ f.toNat →
      exec (.xfh f d) s = .next (raiseFault .variantMismatch (encode (.xfh f d)) s)) ∧
    (s.status.loaded = true → f.toNat < fieldCount s.cfg s.record.variant →
      ∃ t, exec (.xfh f d) s = .next t ∧
        HoldsText t.results.hexLen.toNat t.results.hexChar
          (hex (extract s.record.payload (fieldList s.cfg s.record.variant f.toNat)) d.toNat) ∧ OnlyHexWritten s t)

/-- 40_extraction.md R102: XRI's encoding, its two faults (the sum START + LEN without wrap), and its result, whatever the variant. -/
def Obligations.XriExtractsTheRange : Prop :=
  (∀ w : Word, w &&& 0xFF8080FF = 0x12000000 → decode w = .ok (.xri (w.extractLsb' 16 7) (w.extractLsb' 8 7))) ∧
  ∀ (s : State) (a n : BitVec 7),
    (s.status.loaded = false → exec (.xri a n) s = .next (raiseFault .noRecord (encode (.xri a n)) s)) ∧
    (s.status.loaded = true → (n.toNat = 0 ∨ 96 < a.toNat + n.toNat) →
      exec (.xri a n) s = .next (raiseFault .range (encode (.xri a n)) s)) ∧
    (s.status.loaded = true → n.toNat ≠ 0 → a.toNat + n.toNat ≤ 96 →
      ∃ t, exec (.xri a n) s = .next t ∧
        t.results.result.toNat = extract s.record.payload (List.range' a.toNat n.toNat) ∧ OnlyResultWritten s t)

/-- 40_extraction.md R103: XRH's encoding, its two faults, and the string it leaves in the hex buffer, whatever the variant. -/
def Obligations.XrhRendersTheRange : Prop :=
  (∀ w : Word, w &&& 0xFF8080E0 = 0x13000000 →
    decode w = .ok (.xrh (w.extractLsb' 16 7) (w.extractLsb' 8 7) (w.extractLsb' 0 5))) ∧
  ∀ (s : State) (a n : BitVec 7) (d : BitVec 5),
    (s.status.loaded = false → exec (.xrh a n d) s = .next (raiseFault .noRecord (encode (.xrh a n d)) s)) ∧
    (s.status.loaded = true → (n.toNat = 0 ∨ 96 < a.toNat + n.toNat) →
      exec (.xrh a n d) s = .next (raiseFault .range (encode (.xrh a n d)) s)) ∧
    (s.status.loaded = true → n.toNat ≠ 0 → a.toNat + n.toNat ≤ 96 →
      ∃ t, exec (.xrh a n d) s = .next t ∧
        HoldsText t.results.hexLen.toNat t.results.hexChar (hex (extract s.record.payload (List.range' a.toNat n.toNat)) d.toNat) ∧
        OnlyHexWritten s t)

/-- 40_extraction.md R105: parsing the hex of an extraction gives the extraction, and an integer command and a hex command over the same
field or range agree digit for digit. -/
def Obligations.HexAndIntegerExtractionAgree : Prop :=
  (∀ (p : BitVec 96) (l : List Nat) (d : Nat), d ≤ 31 → parseNumeral 16 (hex (extract p l) d) = extract p l) ∧
  (∀ (s : State) (f : BitVec 4) (d : BitVec 5), selfCheck s.cfg = true → s.status.loaded = true →
    f.toNat < fieldCount s.cfg s.record.variant →
    ∃ t u, exec (.xfi f) s = .next t ∧ exec (.xfh f d) s = .next u ∧ parseNumeral 16 (hexString u) = t.results.result.toNat) ∧
  ∀ (s : State) (a n : BitVec 7) (d : BitVec 5), s.status.loaded = true → n.toNat ≠ 0 → a.toNat + n.toNat ≤ 96 →
    ∃ t u, exec (.xri a n) s = .next t ∧ exec (.xrh a n d) s = .next u ∧ parseNumeral 16 (hexString u) = t.results.result.toNat

/-- 40_extraction.md R106: an extraction command makes the same result registers, valid bits and fault fields whatever VALID, TIMESTAMP,
TIMESLOT and RAW_OPCODE hold. -/
def Obligations.ExtractionIgnoresTheMetadata : Prop :=
  ∀ (s : State) (i : Instr) (v : Bool) (ts : BitVec 64) (sl : BitVec 1) (op : BitVec 8),
    ((∃ f, i = .xfi f) ∨ (∃ f d, i = .xfh f d) ∨ (∃ a n, i = .xri a n) ∨ (∃ a n d, i = .xrh a n d)) →
    selfCheck s.cfg = true →
    ∃ t u, exec i s = .next t ∧
      exec i { s with record := { s.record with valid := v, timestamp := ts, timeslot := sl, rawOpcode := op } } = .next u ∧
      u.results = t.results ∧ u.status = t.status ∧ u.faultCmd = t.faultCmd

/-! ### Record commands -/

/-- 41_record.md R120: NOP is the word 0x00000000 only and changes nothing, loaded or not; 0x00000001 is not NOP and raises
ILLEGAL_COMMAND. -/
def Obligations.NopIsTheZeroWordAndDoesNothing : Prop :=
  (∀ w : Word, decode w = .ok .nop ↔ w = 0) ∧ (∀ s : State, exec .nop s = .next s) ∧
  (∀ s : State, issueCommand 0 s = .next s) ∧
  ∀ s : State, s.status.fault = false → issueCommand 1 s = .next (raiseFault .illegalCommand 1 s)

/-- 41_record.md R121: LOAD's encoding, its fault, and the record it builds bit by bit from the input registers, as the host reads them at
0x010 to 0x024 (20_memory.md R64, R68): VALID is bit 0 and TIMESLOT bit 1 of IN_META; the input registers, the contents of the result
registers and the fault fields stay as they are, and the six valid bits are cleared. -/
def Obligations.LoadBuildsTheRecord : Prop :=
  (∀ w : Word, w &&& 0xFFFF00F0 = 0x01000000 → decode w = .ok (.load (w.extractLsb' 0 4) (w.extractLsb' 8 8))) ∧
  ∀ (s : State) (var : BitVec 4) (rawopc : BitVec 8),
    (2 ≤ var.toNat → exec (.load var rawopc) s = .next (raiseFault .illegalCommand (encode (.load var rawopc)) s)) ∧
    (var.toNat < 2 →
      ∃ t, exec (.load var rawopc) s = .next t ∧
        (∀ i, i < 96 →
          bitRead t.record.payload i = (hostRead s (0x010 + 4 * (i / 32))).getLsbD (31 - i % 32)) ∧
        t.record.valid = (hostRead s 0x01C).getLsbD 0 ∧ t.record.timeslot = (hostRead s 0x01C).extractLsb' 1 1 ∧
        t.record.timestamp.toNat = (hostRead s 0x024).toNat * 2 ^ 32 + (hostRead s 0x020).toNat ∧
        variantTag t.record.variant = var ∧ t.record.rawOpcode = rawopc ∧
        t = { s with
              record := t.record
              status := { s.status with loaded := true, rv := false, hv := false, av := false, tv := false, dv := false, sv := false } })

/-- 41_record.md R122: ISVALID's word, its fault and its result. -/
def Obligations.IsvalidReadsTheValidityFlag : Prop :=
  (∀ w : Word, decode w = .ok .isvalid ↔ w = 0x20000000) ∧
  ∀ s : State,
    (s.status.loaded = false → exec .isvalid s = .next (raiseFault .noRecord 0x20000000 s)) ∧
    (s.status.loaded = true →
      ∃ t, exec .isvalid s = .next t ∧ t.results.result.toNat = (if s.record.valid then 1 else 0) ∧ OnlyResultWritten s t)

/-- 41_record.md R123 and R124: ISENC and ISRES read the designated payload positions, for every variant and whatever VALID is. -/
def Obligations.IsencAndIsresReadTheirPositions : Prop :=
  (∀ w : Word, (decode w = .ok .isenc ↔ w = 0x21000000) ∧ (decode w = .ok .isres ↔ w = 0x22000000)) ∧
  ∀ s : State, selfCheck s.cfg = true →
    (s.status.loaded = false →
      exec .isenc s = .next (raiseFault .noRecord 0x21000000 s) ∧ exec .isres s = .next (raiseFault .noRecord 0x22000000 s)) ∧
    (s.status.loaded = true →
      (∃ t, exec .isenc s = .next t ∧ t.results.result.toNat = (bitRead s.record.payload s.cfg.encPos).toNat ∧ OnlyResultWritten s t) ∧
      ∃ t, exec .isres s = .next t ∧ t.results.result.toNat = (bitRead s.record.payload s.cfg.resPos).toNat ∧ OnlyResultWritten s t)

/-- 41_record.md R125, R126, R127, R128: the metadata reads. -/
def Obligations.MetadataReadsReturnTheRecord : Prop :=
  (∀ w : Word, (decode w = .ok .tstamp ↔ w = 0x23000000) ∧ (decode w = .ok .tslot ↔ w = 0x24000000) ∧
    (decode w = .ok .variant ↔ w = 0x25000000) ∧ (decode w = .ok .opcode ↔ w = 0x26000000)) ∧
  ∀ s : State,
    (s.status.loaded = false →
      exec .tstamp s = .next (raiseFault .noRecord 0x23000000 s) ∧ exec .tslot s = .next (raiseFault .noRecord 0x24000000 s) ∧
      exec .variant s = .next (raiseFault .noRecord 0x25000000 s) ∧ exec .opcode s = .next (raiseFault .noRecord 0x26000000 s)) ∧
    (s.status.loaded = true →
      (∃ t, exec .tstamp s = .next t ∧ t.results.result.toNat = s.record.timestamp.toNat ∧ OnlyResultWritten s t) ∧
      (∃ t, exec .tslot s = .next t ∧ t.results.result.toNat = s.record.timeslot.toNat ∧ OnlyResultWritten s t) ∧
      (∃ t, exec .variant s = .next t ∧
        t.results.result.toNat = (match s.record.variant with | .unrecognized => 0 | .encParams => 1) ∧ OnlyResultWritten s t) ∧
      ∃ t, exec .opcode s = .next t ∧ t.results.result.toNat = s.record.rawOpcode.toNat ∧ OnlyResultWritten s t)

/-- 41_record.md R129 with 42_enc_params.md R156: IDS's word, its one fault, and the list for either variant. -/
def Obligations.IdsProducesTheList : Prop :=
  (∀ w : Word, decode w = .ok .ids ↔ w = 0x40000000) ∧
  ∀ s : State, selfCheck s.cfg = true →
    (s.status.loaded = false → exec .ids s = .next (raiseFault .noRecord 0x40000000 s)) ∧
    (s.status.loaded = true →
      ∃ t l, exec .ids s = .next t ∧ OnlyIdsWritten s t ∧
        l = (match s.record.variant with
          | .unrecognized => []
          | .encParams => [⟨1, BitVec.ofNat 32 (extract s.record.payload (fieldList s.cfg .encParams 3))⟩]) ∧
        t.results.idsCount.toNat = l.length ∧ t.results.ids.toList = l ++ List.replicate (4 - l.length) ⟨0, 0⟩)

/-- 41_record.md R131 with the dumps of R133 and 42_enc_params.md R157, R158: SUMMARY's word, its one fault, and the text part by part. -/
def Obligations.SummaryRendersTheRecord : Prop :=
  (∀ w : Word, decode w = .ok .summary ↔ w = 0x41000000) ∧
  ∀ s : State, LegalConfig s.cfg →
    (s.status.loaded = false → exec .summary s = .next (raiseFault .noRecord 0x41000000 s)) ∧
    (s.status.loaded = true →
      ∃ t, exec .summary s = .next t ∧ OnlySummaryWritten s t ∧
        HoldsText t.results.sumLen.toNat t.results.sumChar
          (joinSpace
            ((if s.record.valid = false then [ascii ['[', 'C', 'R', 'C', '-', 'E', 'R', 'R', 'O', 'R', ']']] else []) ++
             (if bitRead s.record.payload s.cfg.encPos = true then [ascii ['*', 'E', 'N', 'C', 'R', 'Y', 'P', 'T', 'E', 'D', '*']]
              else []) ++
             (if bitRead s.record.payload s.cfg.resPos = true then
                [ascii ['*', 'R', 'E', 'S', 'E', 'R', 'V', 'E', 'D', '-', 'B', 'I', 'T', '*']] else []) ++
             (match s.record.variant with
              | .unrecognized =>
                [ascii ['U', 'N', 'R', 'E', 'C', 'O', 'G', 'N', 'I', 'Z', 'E', 'D'],
                 ascii ['O', 'P', 'C', 'O', 'D', 'E', ':'] ++ dec s.record.rawOpcode.toNat]
              | .encParams =>
                [ascii ['E', 'N', 'C', 'R', 'Y', 'P', 'T', 'I', 'O', 'N', ' ', 'P', 'A', 'R', 'A', 'M', 'E', 'T', 'E', 'R', 'S'],
                 ascii ['K', 'E', 'Y', ':'] ++ dec (extract s.record.payload (fieldList s.cfg .encParams 0)),
                 ascii ['A', 'L', 'G', ':'] ++
                   (if extract s.record.payload (fieldList s.cfg .encParams 2) = 0 then s.cfg.defaultAlgName
                    else ascii ['U', 'N', 'K', 'N', 'O', 'W', 'N', '('] ++
                      dec (extract s.record.payload (fieldList s.cfg .encParams 2)) ++ ascii [')']),
                 ascii ['I', 'V', '(', 'P', 'R', 'O', 'B', 'A', 'B', 'L', 'E', ')', ':'] ++
                   hex (extract s.record.payload (fieldList s.cfg .encParams 1)) 8,
                 ascii ['T', 'G', ':'] ++ dec (extract s.record.payload (fieldList s.cfg .encParams 3))]) ++
             [ascii ['M', 'S', 'G', ':'] ++ hex s.record.payload.toNat 24])))

/-- 41_record.md R132: every summary fits the buffer, with at most 147 characters for ENC_PARAMS and 91 for UNRECOGNIZED. -/
def Obligations.EverySummaryFitsTheBuffer : Prop :=
  ∀ (cfg : Config) (r : Record), LegalConfig cfg →
    (summaryText cfg r).length ≤ 160 ∧ (r.variant = .encParams → (summaryText cfg r).length ≤ 147) ∧
    (r.variant = .unrecognized → (summaryText cfg r).length ≤ 91)

/-- The first and the last of 41_record.md R134's laws, for every legal parameter set: VALID = 0 exactly when the summary begins with
`[CRC-ERROR]`, which occurs nowhere when VALID = 1; and the summary ends with `MSG:` and the 24 digits of the payload. -/
def Obligations.SummaryStartsAndEndsAsStated : Prop :=
  ∀ (cfg : Config) (r : Record), LegalConfig cfg →
    (r.valid = false ↔ crcErrorText <+: summaryText cfg r) ∧ (r.valid = true → ¬ crcErrorText <:+: summaryText cfg r) ∧
    (hex r.payload.toNat 24).length = 24 ∧ ascii ['M', 'S', 'G', ':'] ++ hex r.payload.toNat 24 <:+ summaryText cfg r

/-- The marker laws of 41_record.md R134, with the premise they need and R6 does not give (log entry 12): the default algorithm's name holds
no `*`. -/
def Obligations.SummaryMarkersFollowTheFlags : Prop :=
  ∀ (cfg : Config) (r : Record), LegalConfig cfg → 0x2A ∉ cfg.defaultAlgName →
    (bitRead r.payload cfg.encPos = true ↔ ascii ['*', 'E', 'N', 'C', 'R', 'Y', 'P', 'T', 'E', 'D', '*'] <:+: summaryText cfg r) ∧
    (bitRead r.payload cfg.resPos = true ↔
      ascii ['*', 'R', 'E', 'S', 'E', 'R', 'V', 'E', 'D', '-', 'B', 'I', 'T', '*'] <:+: summaryText cfg r)

/-- Why that premise stands: a DEFAULT_ALG_NAME that 00_scope.md R6 allows puts the marker into the summary of a record whose encrypted flag
is 0, against the second law of 41_record.md R134 (log entry 12). -/
def Obligations.SomeLegalNameForgesTheMarker : Prop :=
  ∃ (cfg : Config) (r : Record), LegalConfig cfg ∧ bitRead r.payload cfg.encPos = false ∧
    ascii ['*', 'E', 'N', 'C', 'R', 'Y', 'P', 'T', 'E', 'D', '*'] <:+: summaryText cfg r

/-- 41_record.md R130 and R135: a command executed a second time leaves the state it left the first time. It holds of LOAD too (R121: a
second LOAD with no host write in between loads the same record again). -/
def Obligations.RepeatedCommandChangesNothing : Prop :=
  ∀ (i : Instr) (s t : State), exec i s = .next t → exec i t = .next t

/-! ### Commands of ENC_PARAMS -/

/-- 42_enc_params.md R152: ALG's word, its two faults, and the register as the host reads it. -/
def Obligations.AlgDecodesTheCode : Prop :=
  (∀ w : Word, decode w = .ok .alg ↔ w = 0x30000000) ∧
  ∀ s : State, selfCheck s.cfg = true →
    (s.status.loaded = false → exec .alg s = .next (raiseFault .noRecord 0x30000000 s)) ∧
    (s.status.loaded = true → s.record.variant ≠ .encParams → exec .alg s = .next (raiseFault .variantMismatch 0x30000000 s)) ∧
    (s.status.loaded = true → s.record.variant = .encParams →
      ∃ t c, exec .alg s = .next t ∧ c = extract s.record.payload (fieldList s.cfg .encParams 2) ∧
        (hostRead t 0x060).toNat = (if c ≠ 0 then 256 else 0) + c ∧ c < 256 ∧ OnlyAlgWritten s t)

/-- 42_enc_params.md R153: KEYID's word, its two faults, and the raw 8-bit key id. -/
def Obligations.KeyidReadsTheKeyId : Prop :=
  (∀ w : Word, decode w = .ok .keyid ↔ w = 0x31000000) ∧
  ∀ s : State, selfCheck s.cfg = true →
    (s.status.loaded = false → exec .keyid s = .next (raiseFault .noRecord 0x31000000 s)) ∧
    (s.status.loaded = true → s.record.variant ≠ .encParams → exec .keyid s = .next (raiseFault .variantMismatch 0x31000000 s)) ∧
    (s.status.loaded = true → s.record.variant = .encParams →
      ∃ t, exec .keyid s = .next t ∧ t.results.result.toNat = extract s.record.payload (fieldList s.cfg .encParams 0) ∧
        t.results.result.toNat < 256 ∧ OnlyResultWritten s t)

/-- 42_enc_params.md R154: IV's word, its two faults, and the vector as always exactly 8 digits. -/
def Obligations.IvRendersEightDigits : Prop :=
  (∀ w : Word, decode w = .ok .iv ↔ w = 0x32000000) ∧
  ∀ s : State, selfCheck s.cfg = true →
    (s.status.loaded = false → exec .iv s = .next (raiseFault .noRecord 0x32000000 s)) ∧
    (s.status.loaded = true → s.record.variant ≠ .encParams → exec .iv s = .next (raiseFault .variantMismatch 0x32000000 s)) ∧
    (s.status.loaded = true → s.record.variant = .encParams →
      ∃ t, exec .iv s = .next t ∧ t.results.hexLen.toNat = 8 ∧
        HoldsText t.results.hexLen.toNat t.results.hexChar (hex (extract s.record.payload (fieldList s.cfg .encParams 1)) 8) ∧
        OnlyHexWritten s t)

/-- 42_enc_params.md R155: TG's word, its two faults, and the talkgroup, 0 to 255. -/
def Obligations.TgReadsTheTalkgroup : Prop :=
  (∀ w : Word, decode w = .ok .tg ↔ w = 0x33000000) ∧
  ∀ s : State, selfCheck s.cfg = true →
    (s.status.loaded = false → exec .tg s = .next (raiseFault .noRecord 0x33000000 s)) ∧
    (s.status.loaded = true → s.record.variant ≠ .encParams → exec .tg s = .next (raiseFault .variantMismatch 0x33000000 s)) ∧
    (s.status.loaded = true → s.record.variant = .encParams →
      ∃ t, exec .tg s = .next t ∧ t.results.tg.toNat = extract s.record.payload (fieldList s.cfg .encParams 3) ∧
        t.results.tg.toNat < 256 ∧ OnlyTgWritten s t)

/-! ### Faults -/

/-- 60_exceptions.md R174: a faulting command writes FAULT, FAULT_CODE and FAULT_CMD and nothing else; from then on a command changes
nothing, while host reads and writes to the input registers work as before; a failed self-check enters the same state with code 1 and
FAULT_CMD 0. -/
def Obligations.FaultEntryIsPrecise : Prop :=
  (∀ (s t : State) (w : Word), s.status.fault = false → issueCommand w s = .next t → t.status.fault = true →
    ∃ c, c ∈ [FaultCode.illegalCommand, .noRecord, .variantMismatch, .range] ∧
      t = { s with status := { s.status with fault := true, faultCode := c }, faultCmd := w } ∧ faultOut t = true) ∧
  (∀ (s : State) (w : Word), s.status.fault = true → issueCommand w s = .next s) ∧
  (∀ (s : State) (rest : List HostEvent) (off : Nat), s.status.fault = true → accessOk 32 off = true →
    (s.pending = .read 32 off :: rest → step s = .next { s with pending := rest, reads := s.reads ++ [hostRead s off] }) ∧
    (∀ (r : HostReg) (v : Word), regAt off = some r → r ≠ .cmd → s.pending = .write 32 off v :: rest →
      step s = .next { s with pending := rest, staging := stageWrite v s.staging r })) ∧
  ∀ s : State, selfCheck s.cfg = false →
    (resetBlock s).status.fault = true ∧ (resetBlock s).status.faultCode = .fieldMapMisconfig ∧ (resetBlock s).faultCmd = 0

/-- 60_exceptions.md R170 and R175: which fault a word raises, by cause, in the order ILLEGAL_COMMAND, NO_RECORD, VARIANT_MISMATCH, RANGE; a
command that meets no cause raises none; no command can meet both of the last two; while FAULT = 1 no command executes; the codes are 0 to
5 and code 1 is the reset's. -/
def Obligations.FaultsFollowTheirCausesInOrder : Prop :=
  (∀ (s : State) (w : Word), s.status.fault = false → LegalConfig s.cfg →
    (IllegalEncoding w → issueCommand w s = .next (raiseFault .illegalCommand w s)) ∧
    ∀ i, ¬ IllegalEncoding w → decode w = .ok i →
      (readsRecord i = true ∧ s.status.loaded = false → issueCommand w s = .next (raiseFault .noRecord w s)) ∧
      (readsRecord i = true ∧ s.status.loaded = true ∧ variantMismatches s.cfg s.record.variant i = true →
        issueCommand w s = .next (raiseFault .variantMismatch w s)) ∧
      (readsRecord i = true ∧ s.status.loaded = true ∧ rangeRefused i = true →
        issueCommand w s = .next (raiseFault .range w s)) ∧
      ((readsRecord i = true → s.status.loaded = true) → variantMismatches s.cfg s.record.variant i = false → rangeRefused i = false →
        ∃ t, issueCommand w s = .next t ∧ t.status.fault = false ∧ t.status.faultCode = s.status.faultCode ∧
          t.faultCmd = s.faultCmd)) ∧
  (∀ (cfg : Config) (v : Variant) (i : Instr), ¬ (variantMismatches cfg v i = true ∧ rangeRefused i = true)) ∧
  (∀ (s : State) (w : Word), s.status.fault = true → issueCommand w s = .next s) ∧
  (∀ s : State, (resetBlock s).status.faultCode = (if selfCheck s.cfg then .none else .fieldMapMisconfig) ∧ (resetBlock s).faultCmd = 0) ∧
  [FaultCode.none, .fieldMapMisconfig, .illegalCommand, .noRecord, .variantMismatch, .range].map faultCodeBits = [0, 1, 2, 3, 4, 5]

/-- The sense of 60_exceptions.md R173: whether a command faults, and with which code, depends on LOADED, the variant, the ROM and the
command alone, never on VALID, the payload's flags, the algorithm code, the raw opcode, or any other register. -/
def Obligations.DataNeverCausesAFault : Prop :=
  ∀ (i : Instr) (s s' t t' : State), LegalConfig s.cfg → s'.cfg = s.cfg → s'.status.loaded = s.status.loaded →
    s'.record.variant = s.record.variant → s.status.fault = false → s'.status.fault = false →
    exec i s = .next t → exec i s' = .next t' →
    t'.status.fault = t.status.fault ∧ (t.status.fault = true → t'.status.faultCode = t.status.faultCode)

/-- 60_exceptions.md R176: only reset clears a fault, no second fault is recorded over the first, and a bad ROM makes the block unusable
for good, resets included. -/
def Obligations.OnlyResetClearsAFault : Prop :=
  (∀ s t : State, s.status.fault = true → s.pending.head? ≠ some .reset → step s = .next t →
    t.status.fault = true ∧ t.status.faultCode = s.status.faultCode ∧ t.faultCmd = s.faultCmd ∧ t.record = s.record ∧
    t.results = s.results) ∧
  (∀ s t : State, selfCheck s.cfg = true → s.pending.head? = some .reset → step s = .next t →
    t.status.fault = false ∧ t.status.faultCode = .none ∧ t.faultCmd = 0) ∧
  ∀ s t : State, selfCheck s.cfg = false → s.status.fault = true → s.status.faultCode = .fieldMapMisconfig → step s = .next t →
    selfCheck t.cfg = false ∧ t.status.fault = true ∧ t.status.faultCode = .fieldMapMisconfig

/-! ### Reset and the ROM -/

/-- 10_state.md R53: one step, the same whatever the state before it; every register at its reset value; the ROM unchanged; STATUS by the
self-check; fault_o equal to STATUS.FAULT. (`pending` is how host events reach the model's block, log entry 2.) -/
def Obligations.ResetGivesEveryRegisterItsValue : Prop :=
  ∀ (s : State) (rest : List HostEvent), s.pending = .reset :: rest →
    ∃ t, step s = .next t ∧ t.cfg = s.cfg ∧ t.pending = rest ∧ faultOut t = (!selfCheck s.cfg) ∧
      t.staging = ⟨0, 0, 0, false, 0, 0, 0⟩ ∧ t.record = ⟨0, false, 0, 0, .unrecognized, 0⟩ ∧ t.faultCmd = 0 ∧
      t.results.result = 0 ∧ t.results.hexLen = 0 ∧ t.results.hexChar.toList = List.replicate 32 0 ∧
      t.results.algCode = 0 ∧ t.results.algUnknown = false ∧ t.results.tg = 0 ∧ t.results.idsCount = 0 ∧
      t.results.ids.toList = List.replicate 4 ⟨0, 0⟩ ∧ t.results.sumLen = 0 ∧ t.results.sumChar.toList = List.replicate 160 0 ∧
      (selfCheck s.cfg = true → hostRead t 0x004 = 0x00000001) ∧ (selfCheck s.cfg = false → hostRead t 0x004 = 0x00000014)

/-- 10_state.md R51 and 70_reset_and_hazards.md R202: the self-check accepts a ROM exactly when the field-map invariants hold. -/
def Obligations.SelfCheckMeansTheRomIsSound : Prop := ∀ cfg : Config, selfCheck cfg = true ↔ RomSound cfg

/-- 70_reset_and_hazards.md R203: the default ROM passes the self-check, so after reset with the defaults ROM_OK = 1 and FAULT = 0. -/
def Obligations.DefaultRomPassesTheSelfCheck : Prop :=
  defaultConfig.encPos = 0 ∧ defaultConfig.resPos = 1 ∧
  defaultConfig.encParamsMap = [rangeList 16 8, rangeList 24 32, rangeList 56 8, rangeList 64 8] ∧
  defaultConfig.encParamsMap.flatten = List.range' 16 56 ∧ RomSound defaultConfig ∧ selfCheck defaultConfig = true ∧ State.reset.status.romOk = true ∧ State.reset.status.fault = false

/-- 10_state.md R50: no command and no host access, reset included, writes the ROM. -/
def Obligations.NoStepWritesTheRom : Prop := ∀ s t : State, step s = .next t → t.cfg = s.cfg

/-! ### The host's side -/

/-- 20_memory.md R64: the offset of every register, as the table lists it; an offset names a register exactly when it is the register's own;
every offset is a multiple of 4 inside the register space. -/
def Obligations.EveryRegisterHasItsOffset : Prop :=
  (regOffset .cmd = 0x000 ∧ regOffset .status = 0x004 ∧ regOffset .faultCmd = 0x008) ∧
  (regOffset .inP0 = 0x010 ∧ regOffset .inP1 = 0x014 ∧ regOffset .inP2 = 0x018 ∧ regOffset .inMeta = 0x01C ∧
    regOffset .inTsLo = 0x020 ∧ regOffset .inTsHi = 0x024) ∧
  (regOffset .resultLo = 0x030 ∧ regOffset .resultMid = 0x034 ∧ regOffset .resultHi = 0x038) ∧
  (regOffset .hexLen = 0x03C ∧ ∀ w : Fin 8, regOffset (.hexChar w) = 0x040 + 4 * w.val) ∧
  (regOffset .alg = 0x060 ∧ regOffset .tg = 0x064 ∧ regOffset .idsCount = 0x068) ∧
  (∀ k : Fin 4, regOffset (.idsType k) = 0x070 + 8 * k.val ∧ regOffset (.idsValue k) = 0x074 + 8 * k.val) ∧
  (regOffset .sumLen = 0x0FC ∧ ∀ w : Fin 40, regOffset (.sumChar w) = 0x100 + 4 * w.val) ∧
  ∀ (r : HostReg) (off : Nat),
    (regAt off = some r ↔ off = regOffset r) ∧ regOffset r % 4 = 0 ∧ regOffset r < 0x1000

/-- 20_memory.md R65: a read returns the register's value, reads CMD and unlisted offsets as 0, and changes no state of the block; a write to
a read-only register or an unlisted offset, which is every offset but those of CMD and the input registers, is ignored. -/
def Obligations.ReadsHaveNoSideEffect : Prop :=
  (∀ (s : State) (off : Nat) (rest : List HostEvent), accessOk 32 off = true → s.pending = .read 32 off :: rest →
    step s = .next { s with pending := rest, reads := s.reads ++ [hostRead s off] }) ∧
  (∀ s : State, hostRead s 0x000 = 0) ∧
  (∀ (s : State) (off : Nat), (∀ r, regOffset r ≠ off) → hostRead s off = 0) ∧
  ∀ (s : State) (off : Nat) (v : Word) (rest : List HostEvent), accessOk 32 off = true →
    off ∉ [0x000, 0x010, 0x014, 0x018, 0x01C, 0x020, 0x024] →
    s.pending = .write 32 off v :: rest → step s = .next { s with pending := rest }

/-- 20_memory.md R66: a write to an RW register, at 0x010 to 0x024, stores the word, IN_META at 0x01C keeping bits 0 and 1 only; every other
offset reads as before, and nothing but the input registers changes, the record registers least of all. -/
def Obligations.StagingWritesStoreAndDoNothingElse : Prop :=
  ∀ (s : State) (off : Nat) (v : Word) (rest : List HostEvent),
    off ∈ [0x010, 0x014, 0x018, 0x01C, 0x020, 0x024] → s.pending = .write 32 off v :: rest →
    ∃ t, step s = .next t ∧ hostRead t off = (if off = 0x01C then v &&& 3 else v) ∧
      (∀ off', off' ≠ off → hostRead t off' = hostRead s off') ∧
      t = { s with pending := rest, staging := t.staging }

/-- 20_memory.md R63: an access of another width than 32 bits, or at an offset not a multiple of 4, has no step: it is refused. -/
def Obligations.OtherAccessesAreRefused : Prop :=
  ∀ (s : State) (width off : Nat) (v : Word) (rest : List HostEvent), (width ≠ 32 ∨ off % 4 ≠ 0) →
    (s.pending = .read width off :: rest → step s = .refused .outsideInterface) ∧
    (s.pending = .write width off v :: rest → step s = .refused .outsideInterface)

/-- 10_state.md R45 and R47: each bit of STATUS as the host reads it, its reserved bits 0, its fault code at most 5, and fault_o equal to
bit 2. -/
def Obligations.StatusBitsAreTheFields : Prop :=
  ∀ s : State,
    (hostRead s 0x004).getLsbD 0 = s.status.romOk ∧ (hostRead s 0x004).getLsbD 1 = s.status.loaded ∧
    (hostRead s 0x004).getLsbD 2 = s.status.fault ∧ (hostRead s 0x004).getLsbD 3 = false ∧
    (hostRead s 0x004).extractLsb' 4 4 = faultCodeBits s.status.faultCode ∧ (faultCodeBits s.status.faultCode).toNat ≤ 5 ∧
    (hostRead s 0x004).getLsbD 8 = s.status.rv ∧ (hostRead s 0x004).getLsbD 9 = s.status.hv ∧
    (hostRead s 0x004).getLsbD 10 = s.status.av ∧ (hostRead s 0x004).getLsbD 11 = s.status.tv ∧
    (hostRead s 0x004).getLsbD 12 = s.status.dv ∧ (hostRead s 0x004).getLsbD 13 = s.status.sv ∧
    (∀ k, 14 ≤ k → (hostRead s 0x004).getLsbD k = false) ∧ faultOut s = (hostRead s 0x004).getLsbD 2

/-- 10_state.md R38 to R43 and R46, with 20_memory.md R64 and R68: what the host finds at each offset but those of CMD and STATUS, the bits
above a narrower register being 0. The word at IN_META holds IN_VALID in bit 0 and IN_TIMESLOT in bit 1 (R24). -/
def Obligations.HostWordsHoldTheResults : Prop :=
  ∀ s : State,
    hostRead s 0x008 = s.faultCmd ∧
    (hostRead s 0x010 = s.staging.inP0 ∧ hostRead s 0x014 = s.staging.inP1 ∧ hostRead s 0x018 = s.staging.inP2) ∧
    (hostRead s 0x01C).toNat = (if s.staging.inValid then 1 else 0) + 2 * s.staging.inTimeslot.toNat ∧
    (hostRead s 0x020 = s.staging.inTsLo ∧ hostRead s 0x024 = s.staging.inTsHi) ∧
    s.results.result.toNat = (hostRead s 0x038).toNat * 2 ^ 64 + (hostRead s 0x034).toNat * 2 ^ 32 + (hostRead s 0x030).toNat ∧
    (hostRead s 0x03C).toNat = s.results.hexLen.toNat ∧
    (∀ j : Fin 32, s.results.hexChar[j] = (hostRead s (0x040 + 4 * (j.val / 4))).extractLsb' (24 - 8 * (j.val % 4)) 8) ∧
    (hostRead s 0x060).toNat = (if s.results.algUnknown then 256 else 0) + s.results.algCode.toNat ∧
    hostRead s 0x064 = s.results.tg ∧
    (hostRead s 0x068).toNat = s.results.idsCount.toNat ∧
    (∀ k : Fin 4, (hostRead s (0x070 + 8 * k.val)).toNat = s.results.ids[k].kind.toNat ∧
      hostRead s (0x074 + 8 * k.val) = s.results.ids[k].value) ∧
    (hostRead s 0x0FC).toNat = s.results.sumLen.toNat ∧
    ∀ j : Fin 160, s.results.sumChar[j] = (hostRead s (0x100 + 4 * (j.val / 4))).extractLsb' (24 - 8 * (j.val % 4)) 8

/-- 30_encoding.md R95: what the pseudo-instructions expand to, and what they then do. -/
def Obligations.PseudoInstructionsExpandToOneCommand : Prop :=
  (∀ p : Nat, p < 128 → asmInstr .bit [.num p] = some (.xri (BitVec.ofNat 7 p) 1)) ∧
  asmInstr .rawint [] = some (.xri 0 96) ∧ asmInstr .rawhex [] = some (.xrh 0 96 24) ∧
  (∀ f : Nat, f < 16 → asmInstr .field [.num f] = some (.xfi (BitVec.ofNat 4 f))) ∧
  ∀ s : State, s.status.loaded = true →
    (∀ p : Nat, p < 96 → ∃ t, exec (.xri (BitVec.ofNat 7 p) 1) s = .next t ∧
      t.results.result.toNat = (bitRead s.record.payload p).toNat ∧ OnlyResultWritten s t) ∧
    (∃ t, exec (.xri 0 96) s = .next t ∧ t.results.result = s.record.payload ∧ OnlyResultWritten s t) ∧
    (∃ t, exec (.xrh 0 96 24) s = .next t ∧ t.results.hexLen.toNat = 24 ∧
      HoldsText t.results.hexLen.toNat t.results.hexChar (hex s.record.payload.toNat 24) ∧ OnlyHexWritten s t) ∧
    ∀ f : Nat, f < fieldCount s.cfg s.record.variant → selfCheck s.cfg = true →
      ∃ t, exec (.xfi (BitVec.ofNat 4 f)) s = .next t ∧
        t.results.result.toNat = extract s.record.payload (fieldList s.cfg s.record.variant f) ∧ OnlyResultWritten s t

/-! ### Whole-machine rules -/

/-- 10_state.md R33: the record registers change only by a successful LOAD (or by reset, R53), and then all together, from the input
registers and the LOAD's operands. -/
def Obligations.OnlyLoadChangesTheRecord : Prop :=
  ∀ s t : State, step s = .next t → t.record ≠ s.record →
    (∃ rest, s.pending = .reset :: rest) ∨
    ∃ w var rawopc v rest, s.pending = .write 32 0 w :: rest ∧ s.status.fault = false ∧ decode w = .ok (.load var rawopc) ∧
      variantTag v = var ∧ t.record = stagedRecord s.staging v rawopc

/-- 10_state.md R44: a command that does not fault and is no LOAD changes the contents of a result group only when it sets the group's valid
bit, and clears no valid bit; a faulting command changes neither; a LOAD clears all six and keeps every content. -/
def Obligations.ValidBitsFollowTheirGroups : Prop :=
  ∀ (i : Instr) (s t : State), exec i s = .next t →
    ((s.status.fault = false ∧ t.status.fault = true) →
      t.results = s.results ∧ t.status = { s.status with fault := true, faultCode := t.status.faultCode }) ∧
    ((∃ var rawopc, i = .load var rawopc) → t.status.fault = s.status.fault → s.status.fault = false →
      t.results = s.results ∧ t.status.rv = false ∧ t.status.hv = false ∧ t.status.av = false ∧ t.status.tv = false ∧
      t.status.dv = false ∧ t.status.sv = false) ∧
    ((∀ var rawopc, i ≠ .load var rawopc) →
      (t.status.rv = false → t.results.result = s.results.result) ∧
      (t.status.hv = false → t.results.hexLen = s.results.hexLen ∧ t.results.hexChar = s.results.hexChar) ∧
      (t.status.av = false → t.results.algCode = s.results.algCode ∧ t.results.algUnknown = s.results.algUnknown) ∧
      (t.status.tv = false → t.results.tg = s.results.tg) ∧
      (t.status.dv = false → t.results.idsCount = s.results.idsCount ∧ t.results.ids = s.results.ids) ∧
      (t.status.sv = false → t.results.sumLen = s.results.sumLen ∧ t.results.sumChar = s.results.sumChar) ∧
      (s.status.rv = true → t.status.rv = true) ∧ (s.status.hv = true → t.status.hv = true) ∧
      (s.status.av = true → t.status.av = true) ∧ (s.status.tv = true → t.status.tv = true) ∧
      (s.status.dv = true → t.status.dv = true) ∧ (s.status.sv = true → t.status.sv = true))

/-- With a legal parameter set every command answers a next state, from every state of the block: none stops the machine. -/
def Obligations.EveryCommandAnswersANextState : Prop :=
  ∀ (i : Instr) (s : State), LegalConfig s.cfg → ∃ t, exec i s = .next t

/-- With a legal parameter set every event the interface has, and an empty list of events, is a step to a next state. -/
def Obligations.EveryLegalEventAnswersANextState : Prop :=
  ∀ s : State, LegalConfig s.cfg → (∀ e, s.pending.head? = some e → LegalEvent e) → ∃ t, step s = .next t

/-- The block's invariant holds after reset, whatever the ROM. -/
def Obligations.ResetEstablishesTheBlockInvariant : Prop := ∀ cfg : Config, Inv (State.resetWith cfg) ∧ ValidBitsCurrent (State.resetWith cfg)

/-- Every step keeps the block's invariant, from every state that meets it, whatever the ROM and whatever the host does. -/
def Obligations.EveryStepKeepsTheBlockInvariant : Prop := ∀ s t : State, Inv s → step s = .next t → Inv t

/-- Every step keeps the meaning of the valid bits (10_state.md R44): whenever one is set, its register group is computed from the current
record. -/
def Obligations.EveryStepKeepsValidBitsCurrent : Prop :=
  ∀ s t : State, ValidBitsCurrent s → step s = .next t → ValidBitsCurrent t
end

