-- ==== Sys2Proof/Laws/Decode.lean ====
section
/-! SUPPORT. The words of each format under the masks of the opcode map, and the operand fields read back from them
(30_encoding.md R82 to R88). -/

namespace Sys2Proof

theorem formatZ_mask (op : BitVec 8) : formatZ op &&& 0xFFFFFFFF = op ++ 0#24 :=
  BitVec.and_allOnes

theorem formatL_mask (op r : BitVec 8) (v : BitVec 4) : formatL op r v &&& 0xFFFF00F0 = op ++ 0#24 := by
  apply BitVec.eq_of_getElem_eq
  intro k hk
  simp only [formatL, BitVec.getElem_and, BitVec.getElem_append]
  interval_cases k <;> simp

theorem formatF_mask (op : BitVec 8) (f : BitVec 4) (d : BitVec 5) : formatF op f d &&& 0xFFF0FFE0 = op ++ 0#24 := by
  apply BitVec.eq_of_getElem_eq
  intro k hk
  simp only [formatF, BitVec.getElem_and, BitVec.getElem_append]
  interval_cases k <;> simp

theorem formatF0_mask (op : BitVec 8) (f : BitVec 4) : formatF op f 0 &&& 0xFFF0FFFF = op ++ 0#24 := by
  apply BitVec.eq_of_getElem_eq
  intro k hk
  simp only [formatF, BitVec.getElem_and, BitVec.getElem_append]
  interval_cases k <;> simp

theorem formatR_mask (op : BitVec 8) (a n : BitVec 7) (d : BitVec 5) : formatR op a n d &&& 0xFF8080E0 = op ++ 0#24 := by
  apply BitVec.eq_of_getElem_eq
  intro k hk
  simp only [formatR, BitVec.getElem_and, BitVec.getElem_append]
  interval_cases k <;> simp

theorem formatR0_mask (op : BitVec 8) (a n : BitVec 7) : formatR op a n 0 &&& 0xFF8080FF = op ++ 0#24 := by
  apply BitVec.eq_of_getElem_eq
  intro k hk
  simp only [formatR, BitVec.getElem_and, BitVec.getElem_append]
  interval_cases k <;> simp

@[simp] theorem varField_formatL (op r : BitVec 8) (v : BitVec 4) : varField (formatL op r v) = v := by
  apply BitVec.eq_of_getElem_eq
  intro k hk
  simp only [varField, formatL, BitVec.getElem_extractLsb', BitVec.getLsbD_append]
  interval_cases k <;> simp

@[simp] theorem rawopcField_formatL (op r : BitVec 8) (v : BitVec 4) : rawopcField (formatL op r v) = r := by
  apply BitVec.eq_of_getElem_eq
  intro k hk
  simp only [rawopcField, formatL, BitVec.getElem_extractLsb', BitVec.getLsbD_append]
  interval_cases k <;> simp

@[simp] theorem fidxField_formatF (op : BitVec 8) (f : BitVec 4) (d : BitVec 5) : fidxField (formatF op f d) = f := by
  apply BitVec.eq_of_getElem_eq
  intro k hk
  simp only [fidxField, formatF, BitVec.getElem_extractLsb', BitVec.getLsbD_append]
  interval_cases k <;> simp

@[simp] theorem mindigField_formatF (op : BitVec 8) (f : BitVec 4) (d : BitVec 5) : mindigField (formatF op f d) = d := by
  apply BitVec.eq_of_getElem_eq
  intro k hk
  simp only [mindigField, formatF, BitVec.getElem_extractLsb', BitVec.getLsbD_append]
  interval_cases k <;> simp

@[simp] theorem startField_formatR (op : BitVec 8) (a n : BitVec 7) (d : BitVec 5) : startField (formatR op a n d) = a := by
  apply BitVec.eq_of_getElem_eq
  intro k hk
  simp only [startField, formatR, BitVec.getElem_extractLsb', BitVec.getLsbD_append]
  interval_cases k <;> simp

@[simp] theorem lenField_formatR (op : BitVec 8) (a n : BitVec 7) (d : BitVec 5) : lenField (formatR op a n d) = n := by
  apply BitVec.eq_of_getElem_eq
  intro k hk
  simp only [lenField, formatR, BitVec.getElem_extractLsb', BitVec.getLsbD_append]
  interval_cases k <;> simp

@[simp] theorem mindigField_formatR (op : BitVec 8) (a n : BitVec 7) (d : BitVec 5) : mindigField (formatR op a n d) = d := by
  apply BitVec.eq_of_getElem_eq
  intro k hk
  simp only [mindigField, formatR, BitVec.getElem_extractLsb', BitVec.getLsbD_append]
  interval_cases k <;> simp

end Sys2Proof
end

