-- ==== Sys2Proof/Laws/State.lean ====
section
/-! SUPPORT. One lemma per field of State for every operation that builds a new state, each true by definition, so that no proof unfolds
a record update. -/

namespace Sys2Proof.Machine

section

variable (c : FaultCode) (w : Word) (s : State)

@[simp] theorem raiseFault_cfg : (raiseFault c w s).cfg = s.cfg := rfl
@[simp] theorem raiseFault_staging : (raiseFault c w s).staging = s.staging := rfl
@[simp] theorem raiseFault_record : (raiseFault c w s).record = s.record := rfl
@[simp] theorem raiseFault_results : (raiseFault c w s).results = s.results := rfl
@[simp] theorem raiseFault_status : (raiseFault c w s).status = statusAfterFault c s.status := rfl
@[simp] theorem raiseFault_faultCmd : (raiseFault c w s).faultCmd = w := rfl
@[simp] theorem raiseFault_pending : (raiseFault c w s).pending = s.pending := rfl
@[simp] theorem raiseFault_reads : (raiseFault c w s).reads = s.reads := rfl

end

section

variable (v : BitVec 96) (s : State)

@[simp] theorem writeResult_cfg : (writeResult v s).cfg = s.cfg := rfl
@[simp] theorem writeResult_staging : (writeResult v s).staging = s.staging := rfl
@[simp] theorem writeResult_record : (writeResult v s).record = s.record := rfl
@[simp] theorem writeResult_results : (writeResult v s).results = { s.results with result := v } := rfl
@[simp] theorem writeResult_status : (writeResult v s).status = { s.status with rv := true } := rfl
@[simp] theorem writeResult_faultCmd : (writeResult v s).faultCmd = s.faultCmd := rfl
@[simp] theorem writeResult_pending : (writeResult v s).pending = s.pending := rfl
@[simp] theorem writeResult_reads : (writeResult v s).reads = s.reads := rfl

end

section

variable (str : Str) (s : State)

@[simp] theorem writeHex_cfg : (writeHex str s).cfg = s.cfg := rfl
@[simp] theorem writeHex_staging : (writeHex str s).staging = s.staging := rfl
@[simp] theorem writeHex_record : (writeHex str s).record = s.record := rfl
@[simp] theorem writeHex_results : (writeHex str s).results = { s.results with hexLen := BitVec.ofNat 6 str.length, hexChar := padded 32 str } := rfl
@[simp] theorem writeHex_status : (writeHex str s).status = { s.status with hv := true } := rfl
@[simp] theorem writeHex_faultCmd : (writeHex str s).faultCmd = s.faultCmd := rfl
@[simp] theorem writeHex_pending : (writeHex str s).pending = s.pending := rfl
@[simp] theorem writeHex_reads : (writeHex str s).reads = s.reads := rfl

end

section

variable (c : Byte) (s : State)

@[simp] theorem writeAlg_cfg : (writeAlg c s).cfg = s.cfg := rfl
@[simp] theorem writeAlg_staging : (writeAlg c s).staging = s.staging := rfl
@[simp] theorem writeAlg_record : (writeAlg c s).record = s.record := rfl
@[simp] theorem writeAlg_results : (writeAlg c s).results = { s.results with algCode := c, algUnknown := decide (c ≠ 0) } := rfl
@[simp] theorem writeAlg_status : (writeAlg c s).status = { s.status with av := true } := rfl
@[simp] theorem writeAlg_faultCmd : (writeAlg c s).faultCmd = s.faultCmd := rfl
@[simp] theorem writeAlg_pending : (writeAlg c s).pending = s.pending := rfl
@[simp] theorem writeAlg_reads : (writeAlg c s).reads = s.reads := rfl

end

section

variable (v : Word) (s : State)

@[simp] theorem writeTg_cfg : (writeTg v s).cfg = s.cfg := rfl
@[simp] theorem writeTg_staging : (writeTg v s).staging = s.staging := rfl
@[simp] theorem writeTg_record : (writeTg v s).record = s.record := rfl
@[simp] theorem writeTg_results : (writeTg v s).results = { s.results with tg := v } := rfl
@[simp] theorem writeTg_status : (writeTg v s).status = { s.status with tv := true } := rfl
@[simp] theorem writeTg_faultCmd : (writeTg v s).faultCmd = s.faultCmd := rfl
@[simp] theorem writeTg_pending : (writeTg v s).pending = s.pending := rfl
@[simp] theorem writeTg_reads : (writeTg v s).reads = s.reads := rfl

end

section

variable (l : List Ident) (s : State)

@[simp] theorem writeIds_cfg : (writeIds l s).cfg = s.cfg := rfl
@[simp] theorem writeIds_staging : (writeIds l s).staging = s.staging := rfl
@[simp] theorem writeIds_record : (writeIds l s).record = s.record := rfl
@[simp] theorem writeIds_results : (writeIds l s).results = { s.results with idsCount := BitVec.ofNat 3 l.length, ids := Vector.ofFn fun k => l.getD k.val ⟨0, 0⟩ } := rfl
@[simp] theorem writeIds_status : (writeIds l s).status = { s.status with dv := true } := rfl
@[simp] theorem writeIds_faultCmd : (writeIds l s).faultCmd = s.faultCmd := rfl
@[simp] theorem writeIds_pending : (writeIds l s).pending = s.pending := rfl
@[simp] theorem writeIds_reads : (writeIds l s).reads = s.reads := rfl

end

section

variable (str : Str) (s : State)

@[simp] theorem storeSummary_cfg : (storeSummary str s).cfg = s.cfg := rfl
@[simp] theorem storeSummary_staging : (storeSummary str s).staging = s.staging := rfl
@[simp] theorem storeSummary_record : (storeSummary str s).record = s.record := rfl
@[simp] theorem storeSummary_results : (storeSummary str s).results = { s.results with sumLen := BitVec.ofNat 8 str.length, sumChar := padded 160 str } := rfl
@[simp] theorem storeSummary_status : (storeSummary str s).status = { s.status with sv := true } := rfl
@[simp] theorem storeSummary_faultCmd : (storeSummary str s).faultCmd = s.faultCmd := rfl
@[simp] theorem storeSummary_pending : (storeSummary str s).pending = s.pending := rfl
@[simp] theorem storeSummary_reads : (storeSummary str s).reads = s.reads := rfl

end

section

variable (r : Record) (s : State)

@[simp] theorem loadRecord_cfg : (loadRecord r s).cfg = s.cfg := rfl
@[simp] theorem loadRecord_staging : (loadRecord r s).staging = s.staging := rfl
@[simp] theorem loadRecord_record : (loadRecord r s).record = r := rfl
@[simp] theorem loadRecord_results : (loadRecord r s).results = s.results := rfl
@[simp] theorem loadRecord_status : (loadRecord r s).status = statusAfterLoad s.status := rfl
@[simp] theorem loadRecord_faultCmd : (loadRecord r s).faultCmd = s.faultCmd := rfl
@[simp] theorem loadRecord_pending : (loadRecord r s).pending = s.pending := rfl
@[simp] theorem loadRecord_reads : (loadRecord r s).reads = s.reads := rfl

end

section

variable (s : State)

@[simp] theorem resetBlock_cfg : (resetBlock s).cfg = s.cfg := rfl
@[simp] theorem resetBlock_staging : (resetBlock s).staging = Staging.reset := rfl
@[simp] theorem resetBlock_record : (resetBlock s).record = Record.reset := rfl
@[simp] theorem resetBlock_results : (resetBlock s).results = Results.reset := rfl
@[simp] theorem resetBlock_status : (resetBlock s).status = Status.reset (selfCheck s.cfg) := rfl
@[simp] theorem resetBlock_faultCmd : (resetBlock s).faultCmd = 0 := rfl
@[simp] theorem resetBlock_pending : (resetBlock s).pending = s.pending := rfl
@[simp] theorem resetBlock_reads : (resetBlock s).reads = [] := rfl

end

section

variable (w : Word) (s : State)

@[simp] theorem issueNext_cfg : (issueNext w s).cfg = s.cfg := rfl
@[simp] theorem issueNext_staging : (issueNext w s).staging = s.staging := rfl
@[simp] theorem issueNext_record : (issueNext w s).record = s.record := rfl
@[simp] theorem issueNext_results : (issueNext w s).results = s.results := rfl
@[simp] theorem issueNext_status : (issueNext w s).status = s.status := rfl
@[simp] theorem issueNext_faultCmd : (issueNext w s).faultCmd = s.faultCmd := rfl
@[simp] theorem issueNext_pending : (issueNext w s).pending = .write 32 0 w :: s.pending := rfl
@[simp] theorem issueNext_reads : (issueNext w s).reads = s.reads := rfl

end

/-! The fields of the reset state. -/

variable (cfg : Config)

@[simp] theorem resetWith_cfg : (State.resetWith cfg).cfg = cfg := rfl
@[simp] theorem resetWith_staging : (State.resetWith cfg).staging = Staging.reset := rfl
@[simp] theorem resetWith_record : (State.resetWith cfg).record = Record.reset := rfl
@[simp] theorem resetWith_results : (State.resetWith cfg).results = Results.reset := rfl
@[simp] theorem resetWith_status : (State.resetWith cfg).status = Status.reset (selfCheck cfg) := rfl
@[simp] theorem resetWith_faultCmd : (State.resetWith cfg).faultCmd = 0 := rfl
@[simp] theorem resetWith_pending : (State.resetWith cfg).pending = [] := rfl
@[simp] theorem resetWith_reads : (State.resetWith cfg).reads = [] := rfl

/-! The parts of STATUS that fault entry and LOAD keep. -/

variable (c : FaultCode) (st : Status)

@[simp] theorem statusAfterFault_romOk : (statusAfterFault c st).romOk = st.romOk := rfl
@[simp] theorem statusAfterFault_loaded : (statusAfterFault c st).loaded = st.loaded := rfl
@[simp] theorem statusAfterFault_fault : (statusAfterFault c st).fault = true := rfl
@[simp] theorem statusAfterFault_faultCode : (statusAfterFault c st).faultCode = c := rfl
@[simp] theorem statusAfterFault_rv : (statusAfterFault c st).rv = st.rv := rfl
@[simp] theorem statusAfterFault_hv : (statusAfterFault c st).hv = st.hv := rfl
@[simp] theorem statusAfterFault_av : (statusAfterFault c st).av = st.av := rfl
@[simp] theorem statusAfterFault_tv : (statusAfterFault c st).tv = st.tv := rfl
@[simp] theorem statusAfterFault_dv : (statusAfterFault c st).dv = st.dv := rfl
@[simp] theorem statusAfterFault_sv : (statusAfterFault c st).sv = st.sv := rfl
@[simp] theorem statusAfterLoad_romOk : (statusAfterLoad st).romOk = st.romOk := rfl
@[simp] theorem statusAfterLoad_loaded : (statusAfterLoad st).loaded = true := rfl
@[simp] theorem statusAfterLoad_fault : (statusAfterLoad st).fault = st.fault := rfl
@[simp] theorem statusAfterLoad_faultCode : (statusAfterLoad st).faultCode = st.faultCode := rfl
@[simp] theorem statusAfterLoad_rv : (statusAfterLoad st).rv = false := rfl
@[simp] theorem statusAfterLoad_hv : (statusAfterLoad st).hv = false := rfl
@[simp] theorem statusAfterLoad_av : (statusAfterLoad st).av = false := rfl
@[simp] theorem statusAfterLoad_tv : (statusAfterLoad st).tv = false := rfl
@[simp] theorem statusAfterLoad_dv : (statusAfterLoad st).dv = false := rfl
@[simp] theorem statusAfterLoad_sv : (statusAfterLoad st).sv = false := rfl

end Sys2Proof.Machine
end

