-- ==== Sys2Proof/Laws/Ops.lean ====
section
/-! SUPPORT. For each check and each guarded write that the meanings share, one lemma that says when it answers a given next state, and
the equations by which it runs; fault entry and the writes a second time. -/

namespace Sys2Proof.Machine

open Host (Outcome)

variable {w : Word} {s t : State} {k : StepResult}

theorem withRecord_eq_next :
    withRecord w s k = .next t ↔
      (s.status.loaded = true ∧ k = .next t) ∨ (s.status.loaded = false ∧ t = raiseFault .noRecord w s) := by
  unfold withRecord
  cases s.status.loaded <;> simp [eq_comm]

@[simp] theorem withRecord_of_loaded (h : s.status.loaded = true) : withRecord w s k = k := by
  simp [withRecord, h]

@[simp] theorem withRecord_of_not_loaded (h : s.status.loaded = false) :
    withRecord w s k = .next (raiseFault .noRecord w s) := by
  simp [withRecord, h]

theorem withField_eq_next {f : BitVec 4} :
    withField w s f k = .next t ↔
      (f.toNat < fieldCount s.cfg s.record.variant ∧ k = .next t) ∨
      (fieldCount s.cfg s.record.variant ≤ f.toNat ∧ t = raiseFault .variantMismatch w s) := by
  unfold withField
  split <;> rename_i h
  · simp [h, Nat.not_lt.mpr h, eq_comm]
  · simp [h, Nat.not_le.mp h]

@[simp] theorem withField_of_lt {f : BitVec 4} (h : f.toNat < fieldCount s.cfg s.record.variant) : withField w s f k = k := by
  simp [withField, Nat.not_le.mpr h]

@[simp] theorem withField_of_le {f : BitVec 4} (h : fieldCount s.cfg s.record.variant ≤ f.toNat) :
    withField w s f k = .next (raiseFault .variantMismatch w s) := by
  simp [withField, h]

theorem withEncParams_eq_next :
    withEncParams w s k = .next t ↔
      (s.record.variant = .encParams ∧ k = .next t) ∨
      (s.record.variant ≠ .encParams ∧ t = raiseFault .variantMismatch w s) := by
  unfold withEncParams
  cases s.record.variant <;> simp [eq_comm]

@[simp] theorem withEncParams_of_eq (h : s.record.variant = .encParams) : withEncParams w s k = k := by
  simp [withEncParams, h]

@[simp] theorem withEncParams_of_ne (h : s.record.variant ≠ .encParams) :
    withEncParams w s k = .next (raiseFault .variantMismatch w s) := by
  simp [withEncParams, h]

theorem rangeBad_iff {a n : BitVec 7} : rangeBad a n = true ↔ n.toNat = 0 ∨ 96 < a.toNat + n.toNat := by
  simp only [rangeBad, Bool.or_eq_true, beq_iff_eq, decide_eq_true_eq]

theorem rangeBad_eq_false_iff {a n : BitVec 7} : rangeBad a n = false ↔ n.toNat ≠ 0 ∧ a.toNat + n.toNat ≤ 96 := by
  rw [← Bool.not_eq_true, rangeBad_iff]
  omega

theorem withRange_eq_next {a n : BitVec 7} :
    withRange w s a n k = .next t ↔
      (rangeBad a n = false ∧ k = .next t) ∨ (rangeBad a n = true ∧ t = raiseFault .range w s) := by
  unfold withRange
  cases rangeBad a n <;> simp [eq_comm]

@[simp] theorem withRange_of_good {a n : BitVec 7} (h : rangeBad a n = false) : withRange w s a n k = k := by
  simp [withRange, h]

@[simp] theorem withRange_of_bad {a n : BitVec 7} (h : rangeBad a n = true) :
    withRange w s a n k = .next (raiseFault .range w s) := by
  simp [withRange, h]

theorem withRom_eq_next : withRom s k = .next t ↔ selfCheck s.cfg = true ∧ k = .next t := by
  unfold withRom
  cases selfCheck s.cfg <;> simp

@[simp] theorem withRom_of_ok (h : selfCheck s.cfg = true) : withRom s k = k := by
  simp [withRom, h]

theorem writeSummary_eq_next {str : Str} :
    writeSummary str s = .next t ↔ str.length ≤ 160 ∧ t = storeSummary str s := by
  unfold writeSummary
  split <;> rename_i h
  · simp [h, eq_comm]
  · simp [h]

@[simp] theorem writeSummary_of_fits {str : Str} (h : str.length ≤ 160) : writeSummary str s = .next (storeSummary str s) := by
  simp [writeSummary, h]

theorem raiseFault_twice (c : FaultCode) : raiseFault c w (raiseFault c w s) = raiseFault c w s := rfl

theorem writeResult_twice (v v' : BitVec 96) : writeResult v (writeResult v' s) = writeResult v s := rfl

theorem writeHex_twice (a b : Str) : writeHex a (writeHex b s) = writeHex a s := rfl

theorem writeAlg_twice (a b : Byte) : writeAlg a (writeAlg b s) = writeAlg a s := rfl

theorem writeTg_twice (a b : Word) : writeTg a (writeTg b s) = writeTg a s := rfl

theorem writeIds_twice (a b : List Ident) : writeIds a (writeIds b s) = writeIds a s := rfl

theorem storeSummary_twice (a b : Str) : storeSummary a (storeSummary b s) = storeSummary a s := rfl

theorem loadRecord_twice (a b : Record) : loadRecord a (loadRecord b s) = loadRecord a s := rfl

/-- A padded buffer is the string and zeros to its end. -/
theorem padded_toList (n : Nat) (str : Str) (h : str.length ≤ n) :
    (padded n str).toList = str ++ List.replicate (n - str.length) 0 := by
  apply List.ext_getElem
  · simp [padded]; omega
  · intro j h₁ h₂
    by_cases hj : j < str.length <;> simp [padded, List.getElem_append, List.getD, hj]

end Sys2Proof.Machine
end

