-- ==== Sys2Proof/Laws/Extract.lean ====
section
/-! SUPPORT. The value extract packs: its bound, and what the self-check gives about the lists it is applied to. -/

namespace Sys2Proof.Machine

@[simp] theorem extract_nil (p : BitVec 96) : extract p [] = 0 := rfl

@[simp] theorem extract_cons (p : BitVec 96) (q : Nat) (l : List Nat) :
    extract p (q :: l) = (bitRead p q).toNat * 2 ^ l.length + extract p l := rfl

/-- The result has the list's length in bits (00_scope.md R13). -/
theorem extract_lt (p : BitVec 96) (l : List Nat) : extract p l < 2 ^ l.length := by
  induction l with
  | nil => simp
  | cons q l ih =>
    have hb : (bitRead p q).toNat ≤ 1 := Bool.toNat_le _
    have : (bitRead p q).toNat * 2 ^ l.length ≤ 2 ^ l.length := by nlinarith
    simp only [extract_cons, List.length_cons, pow_succ]
    omega

theorem extract_lt_of_length_le {l : List Nat} {n : Nat} (p : BitVec 96) (h : l.length ≤ n) : extract p l < 2 ^ n :=
  (extract_lt p l).trans_le (Nat.pow_le_pow_right (by decide) h)

@[simp] theorem rangeList_length (a n : Nat) : (rangeList a n).length = n := by simp [rangeList]

/-- A list the inner loop accepts has distinct positions below 96, none of them used before. -/
theorem checkPositions_iff (used l : List Nat) :
    checkPositions used l = true ↔ (∀ p ∈ l, p < 96) ∧ (∀ p ∈ l, p ∉ used) ∧ l.Nodup := by
  induction l generalizing used with
  | nil => simp [checkPositions]
  | cons q l ih =>
    simp only [checkPositions, Bool.and_eq_true, decide_eq_true_eq, ih, List.mem_cons, List.nodup_cons, Bool.not_eq_true',
      List.contains_eq_mem, decide_eq_false_iff_not, forall_eq_or_imp, not_or]
    constructor
    · rintro ⟨⟨h1, h2⟩, h3, h4, h5⟩
      exact ⟨⟨h1, h3⟩, ⟨h2, fun p hp => (h4 p hp).2⟩, fun hq => (h4 q hq).1 rfl, h5⟩
    · rintro ⟨⟨h1, h3⟩, ⟨h2, h4⟩, h6, h5⟩
      exact ⟨⟨h1, h2⟩, h3, fun p hp => ⟨fun e => h6 (e ▸ hp), h4 p hp⟩, h5⟩

/-- The widths that the self-check fixes (42_enc_params.md R160). -/
theorem encParams_widths {cfg : Config} (h : selfCheck cfg = true) : cfg.encParamsMap.map List.length = [8, 32, 8, 8] := by
  simp only [selfCheck, Bool.and_eq_true, beq_iff_eq, fieldMap] at h
  exact h.2

/-- UNRECOGNIZED has no fields in a ROM the self-check accepts (10_state.md R49). -/
theorem unrecognizedMap_eq_nil {cfg : Config} (h : selfCheck cfg = true) : cfg.unrecognizedMap = [] := by
  simp only [selfCheck, Bool.and_eq_true, beq_iff_eq, fieldCount, fieldMap] at h
  exact List.length_eq_zero_iff.mp h.1.2

theorem fieldCount_unrecognized {cfg : Config} (h : selfCheck cfg = true) : fieldCount cfg .unrecognized = 0 := by
  simp [fieldCount, fieldMap, unrecognizedMap_eq_nil h]

theorem fieldCount_encParams {cfg : Config} (h : selfCheck cfg = true) : fieldCount cfg .encParams = 4 := by
  simpa [fieldCount, fieldMap] using congrArg List.length (encParams_widths h)

/-- The lengths of the four ENC_PARAMS lists. -/
theorem encParams_list_length {cfg : Config} (h : selfCheck cfg = true) (f : Nat) :
    (fieldList cfg .encParams f).length = [8, 32, 8, 8].getD f 0 := by
  rw [← encParams_widths h]
  by_cases hf : f < cfg.encParamsMap.length <;> simp [fieldList, fieldMap, List.getD, hf]

/-- No list of a ROM the self-check accepts is longer than 32 positions. -/
theorem fieldList_length_le {cfg : Config} (h : selfCheck cfg = true) (v : Variant) (f : Nat) :
    (fieldList cfg v f).length ≤ 32 := by
  cases v with
  | unrecognized => simp [fieldList, fieldMap, unrecognizedMap_eq_nil h]
  | encParams =>
    rw [encParams_list_length h]
    rcases f with _ | _ | _ | _ | f <;> simp

theorem encField_lt {cfg : Config} (h : selfCheck cfg = true) (r : Record) {f w : Nat} (hw : [8, 32, 8, 8].getD f 0 ≤ w) :
    encField cfg r f < 2 ^ w :=
  extract_lt_of_length_le _ (by rw [encParams_list_length h]; exact hw)

end Sys2Proof.Machine
end

