-- ==== Sys2Proof/Laws/Text.lean ====
section
/-! SUPPORT. Digits of a number: how many there are, their bound, and the value they stand for. -/

namespace Sys2Proof.Machine

theorem digitsRev_length {b : Nat} (hb : 2 ≤ b) : ∀ fuel v : Nat, v < 2 ^ fuel →
    (digitsRev b fuel v).length = if fuel = 0 then 0 else Nat.log b v + 1
  | 0, v, _ => by simp [digitsRev]
  | fuel + 1, v, h => by
    unfold digitsRev
    split <;> rename_i hv
    · simp [Nat.log_of_lt hv]
    · have hdiv : v / b < 2 ^ fuel := by
        apply Nat.div_lt_of_lt_mul
        rw [pow_succ] at h
        nlinarith [Nat.one_le_two_pow (n := fuel)]
      have hfuel : fuel ≠ 0 := by
        rintro rfl
        have : v / b ≥ 1 := (Nat.one_le_div_iff (by omega)).mpr (by omega)
        simp at hdiv; omega
      have hlog : Nat.log b v = Nat.log b (v / b) + 1 := Nat.log_of_one_lt_of_le (by omega) (by omega)
      rw [List.length_cons, digitsRev_length hb fuel _ hdiv, if_neg hfuel, if_neg (Nat.succ_ne_zero fuel), hlog]

theorem digitsRev_lt {b : Nat} (hb : 2 ≤ b) : ∀ (fuel v : Nat), ∀ d ∈ digitsRev b fuel v, d < b
  | 0, v, d, h => by simp [digitsRev] at h
  | fuel + 1, v, d, h => by
    unfold digitsRev at h
    split at h <;> rename_i hv
    · simpa [List.mem_singleton.mp h] using hv
    · rcases List.mem_cons.mp h with rfl | h
      · exact Nat.mod_lt _ (by omega)
      · exact digitsRev_lt hb fuel _ d h

/-- Reading digits, least significant first, gives the number back. -/
theorem digitsRev_value {b : Nat} (hb : 2 ≤ b) : ∀ fuel v : Nat, v < 2 ^ fuel →
    (digitsRev b fuel v).foldr (fun d acc => acc * b + d) 0 = v
  | 0, v, h => by simp [digitsRev] at h ⊢; omega
  | fuel + 1, v, h => by
    unfold digitsRev
    split <;> rename_i hv
    · simp
    · have hdiv : v / b < 2 ^ fuel := by
        apply Nat.div_lt_of_lt_mul
        rw [pow_succ] at h
        nlinarith [Nat.one_le_two_pow (n := fuel)]
      rw [List.foldr_cons, digitsRev_value hb fuel _ hdiv]
      have := Nat.div_add_mod v b
      rw [Nat.mul_comm] at this
      exact this

theorem digits_length {b : Nat} (hb : 2 ≤ b) (v : Nat) : (digits b v).length = Nat.log b v + 1 := by
  simp [digits, digitsRev_length hb _ v Nat.lt_log2_self]

theorem digits_lt {b : Nat} (hb : 2 ≤ b) (v d : Nat) (h : d ∈ digits b v) : d < b :=
  digitsRev_lt hb _ v d (List.mem_reverse.mp h)

/-- Reading digits, most significant first, gives the number back. -/
theorem digits_value {b : Nat} (hb : 2 ≤ b) (v : Nat) : (digits b v).foldl (fun acc d => acc * b + d) 0 = v := by
  simpa [digits] using digitsRev_value hb _ v Nat.lt_log2_self

theorem digitValue_digitChar {d : Nat} (h : d < 16) : digitValue (digitChar d) = d := by
  interval_cases d <;> decide

theorem sig_eq (v : Nat) : sig v = Nat.log 16 v + 1 := digits_length (by decide) v

theorem hex_length (v d : Nat) : (hex v d).length = max d (sig v) := by
  simp [hex, sig]; omega

/-- A number below 2^(4n), n not 0, has at most n hex digits. -/
theorem sig_le {v n : Nat} (hn : n ≠ 0) (h : v < 2 ^ (4 * n)) : sig v ≤ n := by
  rw [sig_eq]
  have : Nat.log 16 v < n := by
    rcases Nat.eq_zero_or_pos v with rfl | hv
    · simpa using Nat.pos_of_ne_zero hn
    · exact Nat.log_lt_of_lt_pow (by omega) (by rwa [show (16 : Nat) = 2 ^ 4 from rfl, ← pow_mul])
  omega

/-- The decimal numeral of an 8-bit number has at most 3 characters (41_record.md R132). -/
theorem dec_length_le {v : Nat} (h : v < 256) : (dec v).length ≤ 3 := by
  have : Nat.log 10 v < 3 := Nat.log_lt_of_lt_pow' (by decide) (by omega)
  simp [dec, digits_length]; omega

end Sys2Proof.Machine
end

