-- ==== Sys2Proof/Laws/Exec.lean ====
section
/-! SUPPORT. Everything a command, a command issue and a step can do, said once. -/

namespace Sys2Proof.Machine

/-- What a command can make of a state: nothing, one of the four faults of 60_exceptions.md R170, a new record, or one result group
written; only the last needs a loaded record. -/
inductive CommandEffect (i : Instr) (s : State) : State → Prop where
  | nothing (hi : i = .nop) : CommandEffect i s s
  | faulted (c : FaultCode) (hc : c ∈ [FaultCode.illegalCommand, .noRecord, .variantMismatch, .range]) :
      CommandEffect i s (raiseFault c (encode i) s)
  | loaded (var : BitVec 4) (rawopc : BitVec 8) (v : Variant) (hi : i = .load var rawopc) (hv : variantTag v = var) :
      CommandEffect i s (loadRecord (stagedRecord s.staging v rawopc) s)
  | result (x : BitVec 96) (hi : readsRecord i = true) (h : s.status.loaded = true) : CommandEffect i s (writeResult x s)
  | hexText (str : Str) (hi : readsRecord i = true) (h : s.status.loaded = true) (hlen : str.length ≤ 31) : CommandEffect i s (writeHex str s)
  | algCode (hi : i = .alg) (h : s.status.loaded = true) : CommandEffect i s (writeAlg (algCodeOf s.cfg s.record) s)
  | talkgroup (hi : i = .tg) (h : s.status.loaded = true) (hx : (talkgroupOf s.cfg s.record).toNat < 256) :
      CommandEffect i s (writeTg (talkgroupOf s.cfg s.record) s)
  | idList (hi : i = .ids) (h : s.status.loaded = true) : CommandEffect i s (writeIds (idsOf s.cfg s.record) s)
  | summaryText (hi : i = .summary) (h : s.status.loaded = true) (hlen : (summaryText s.cfg s.record).length ≤ 160) :
      CommandEffect i s (storeSummary (summaryText s.cfg s.record) s)

theorem variantOfTag_eq_some {var : BitVec 4} {v : Variant} : variantOfTag var = some v ↔ variantTag v = var := by
  have h : ∀ (var : BitVec 4) (v : Variant), variantOfTag var = some v ↔ variantTag v = var := by
    intro var v
    cases v <;> revert var <;> decide
  exact h var v

theorem variantOfTag_eq_none {var : BitVec 4} : variantOfTag var = none ↔ 2 ≤ var.toNat := by
  revert var
  decide

/-- The hex a command renders has at most 31 characters (40_extraction.md R104). -/
theorem hex_length_le_31 {v d : Nat} (hv : v < 2 ^ 96) (hd : d ≤ 31) : (hex v d).length ≤ 31 := by
  rw [hex_length]
  exact max_le hd ((sig_le (n := 24) (by decide) hv).trans (by decide))

theorem exec_effect {i : Instr} {s t : State} (h : exec i s = .next t) : CommandEffect i s t := by
  cases i <;> simp only [exec] at h
  case nop => cases h; exact .nothing rfl
  case load var rawopc =>
    unfold execLoad at h
    split at h <;> cases h
    · exact .faulted _ (by simp)
    · exact .loaded var rawopc _ rfl (variantOfTag_eq_some.mp ‹_›)
  all_goals
    first
      | unfold execXfi at h | unfold execXfh at h | unfold execXri at h | unfold execXrh at h
      | unfold execIsvalid at h | unfold execIsenc at h | unfold execIsres at h | unfold execTstamp at h
      | unfold execTslot at h | unfold execVariant at h | unfold execOpcode at h | unfold execAlg at h
      | unfold execKeyid at h | unfold execIv at h | unfold execTg at h | unfold execIds at h | unfold execSummary at h
    rcases withRecord_eq_next.mp h with ⟨hl, h⟩ | ⟨-, rfl⟩
    rotate_left
    · exact .faulted _ (by simp)
  case xfi | xfh =>
    rcases withField_eq_next.mp h with ⟨-, h⟩ | ⟨-, rfl⟩
    · obtain ⟨hr, h⟩ := withRom_eq_next.mp h
      cases h
      first
        | exact .result _ rfl hl
        | exact .hexText _ rfl hl (hex_length_le_31
            (extract_lt_of_length_le _ ((fieldList_length_le hr _ _).trans (by decide))) (by omega))
    · exact .faulted _ (by simp)
  case xri | xrh =>
    rcases withRange_eq_next.mp h with ⟨hr, h⟩ | ⟨-, rfl⟩
    · cases h
      first
        | exact .result _ rfl hl
        | exact .hexText _ rfl hl (hex_length_le_31
            (extract_lt_of_length_le _ (by
              have := (rangeBad_eq_false_iff.mp hr).2
              simp only [rangePositions, rangeList_length]; omega)) (by omega))
    · exact .faulted _ (by simp)
  case alg | keyid | iv | tg =>
    rcases withEncParams_eq_next.mp h with ⟨-, h⟩ | ⟨-, rfl⟩
    · obtain ⟨hr, h⟩ := withRom_eq_next.mp h
      cases h
      first
        | exact .algCode rfl hl
        | exact .talkgroup rfl hl (by
            have := encField_lt hr s.record (f := 3) (w := 8) (by decide)
            simp only [talkgroupOf, BitVec.toNat_ofNat]
            omega)
        | exact .result _ rfl hl
        | exact .hexText _ rfl hl (hex_length_le_31
            (extract_lt_of_length_le _ ((fieldList_length_le hr _ _).trans (by decide))) (by decide))
    · exact .faulted _ (by simp)
  case summary =>
    obtain ⟨-, h⟩ := withRom_eq_next.mp h
    obtain ⟨hlen, rfl⟩ := writeSummary_eq_next.mp h
    exact .summaryText rfl hl hlen
  case ids =>
    obtain ⟨-, h⟩ := withRom_eq_next.mp h
    cases h; exact .idList rfl hl
  case isenc | isres =>
    obtain ⟨-, h⟩ := withRom_eq_next.mp h
    cases h; exact .result _ rfl hl
  all_goals cases h; exact .result _ rfl hl

/-- A record-reading command in a second state with the same ROM, record and LOADED writes the same values to the same group
(41_record.md R135), unless it faults or stops. -/
theorem exec_same_write {i : Instr} (hi : readsRecord i = true) {s t : State} (hc : t.cfg = s.cfg) (hr : t.record = s.record)
    (hl : t.status.loaded = s.status.loaded) :
    (∃ c, exec i s = .next (raiseFault c (encode i) s)) ∨ (∃ f, exec i s = .fault f) ∨
    (∃ v, exec i s = .next (writeResult v s) ∧ exec i t = .next (writeResult v t)) ∨
    (∃ v, exec i s = .next (writeHex v s) ∧ exec i t = .next (writeHex v t)) ∨
    (∃ v, exec i s = .next (writeAlg v s) ∧ exec i t = .next (writeAlg v t)) ∨
    (∃ v, exec i s = .next (writeTg v s) ∧ exec i t = .next (writeTg v t)) ∨
    (∃ v, exec i s = .next (writeIds v s) ∧ exec i t = .next (writeIds v t)) ∨
    ∃ v, exec i s = .next (storeSummary v s) ∧ exec i t = .next (storeSummary v t) := by
  cases i
  case nop | load => simp [readsRecord] at hi
  all_goals
    simp only [exec, execXfi, execXfh, execXri, execXrh, execIsvalid, execIsenc, execIsres, execTstamp, execTslot, execVariant,
      execOpcode, execAlg, execKeyid, execIv, execTg, execIds, execSummary, withRecord, withField, withEncParams, withRange,
      withRom, writeSummary, hc, hr, hl]
    split_ifs
    all_goals first
      | exact .inl ⟨_, rfl⟩
      | exact .inr (.inl ⟨_, rfl⟩)
      | exact .inr (.inr (.inl ⟨_, rfl, rfl⟩))
      | exact .inr (.inr (.inr (.inl ⟨_, rfl, rfl⟩)))
      | exact .inr (.inr (.inr (.inr (.inl ⟨_, rfl, rfl⟩))))
      | exact .inr (.inr (.inr (.inr (.inr (.inl ⟨_, rfl, rfl⟩)))))
      | exact .inr (.inr (.inr (.inr (.inr (.inr (.inl ⟨_, rfl, rfl⟩))))))
      | exact .inr (.inr (.inr (.inr (.inr (.inr (.inr ⟨_, rfl, rfl⟩))))))

/-- What a write of a word to CMD can make of a state. -/
inductive IssueEffect (w : Word) (s : State) : State → Prop where
  | ignored (h : s.status.fault = true) : IssueEffect w s s
  | illegal (h : s.status.fault = false) (e : DecodeRefusal) (hd : decode w = .error e) :
      IssueEffect w s (raiseFault .illegalCommand w s)
  | executed (h : s.status.fault = false) (i : Instr) (hd : decode w = .ok i) (t : State) (he : exec i s = .next t) :
      IssueEffect w s t

theorem issueCommand_effect {w : Word} {s t : State} (h : issueCommand w s = .next t) : IssueEffect w s t := by
  unfold issueCommand at h
  split at h <;> rename_i hf
  · cases h; exact .ignored hf
  · rw [Bool.not_eq_true] at hf
    split at h
    · cases h; exact .illegal hf _ ‹_›
    · exact .executed hf _ ‹_› _ h

/-- What a step can do: nothing, a read, a write to an input register or to a place that ignores it, a command, or a reset. -/
inductive StepEffect (s : State) : State → Prop where
  | idle (h : s.pending = []) : StepEffect s s
  | read (off : Nat) (rest : List HostEvent) (h : s.pending = .read 32 off :: rest) (ho : accessOk 32 off = true) :
      StepEffect s { s with pending := rest, reads := s.reads ++ [hostRead s off] }
  | staged (off : Nat) (v : Word) (r : HostReg) (rest : List HostEvent) (h : s.pending = .write 32 off v :: rest)
      (hr : regAt off = some r) (hc : r ≠ .cmd) :
      StepEffect s { s with pending := rest, staging := stageWrite v s.staging r }
  | unlisted (off : Nat) (v : Word) (rest : List HostEvent) (h : s.pending = .write 32 off v :: rest) (hr : regAt off = none) :
      StepEffect s { s with pending := rest }
  | command (w : Word) (rest : List HostEvent) (h : s.pending = .write 32 0 w :: rest) (t : State)
      (ht : IssueEffect w { s with pending := rest } t) : StepEffect s t
  | reset (rest : List HostEvent) (h : s.pending = .reset :: rest) : StepEffect s (resetBlock { s with pending := rest })

theorem regAt_offset {off : Nat} {r : HostReg} (h : regAt off = some r) : regOffset r = off := by
  have := List.find?_some h
  simpa using this

theorem mem_hostRegs (r : HostReg) : r ∈ hostRegs := by
  cases r <;> simp [hostRegs]

theorem regOffset_injective {r r' : HostReg} (h : regOffset r = regOffset r') : r = r' :=
  (by decide +kernel : ∀ r ∈ hostRegs, ∀ r' ∈ hostRegs, regOffset r = regOffset r' → r = r') r (mem_hostRegs r) r' (mem_hostRegs r') h

/-- A read at a register's offset returns that register (20_memory.md R64). -/
theorem hostRead_regOffset (s : State) (r : HostReg) : hostRead s (regOffset r) = readReg s r := by
  unfold hostRead
  cases h : regAt (regOffset r) with
  | none => exact absurd (List.find?_eq_none.mp h r (mem_hostRegs r)) (by simp)
  | some r' => rw [regOffset_injective (regAt_offset h)]

theorem hostWrite_next {off : Nat} {v : Word} {s t : State} (h : hostWrite off v s = .next t) :
    (off = 0 ∧ IssueEffect v s t) ∨
    (∃ r, regAt off = some r ∧ r ≠ .cmd ∧ t = { s with staging := stageWrite v s.staging r }) ∨ (regAt off = none ∧ t = s) := by
  unfold hostWrite at h
  split at h
  · exact .inl ⟨(regAt_offset ‹_›).symm, issueCommand_effect h⟩
  · cases h; exact .inr (.inl ⟨_, ‹_›, by rintro rfl; simp_all, rfl⟩)
  · cases h; exact .inr (.inr ⟨‹_›, rfl⟩)

theorem step_effect {s t : State} (h : step s = .next t) : StepEffect s t := by
  unfold step takeEvent at h
  split at h
  · cases h; exact .idle ‹_›
  · rename_i e rest hp
    cases e with
    | reset => cases h; exact .reset rest hp
    | read width off =>
      simp only [hostAccess] at h
      split at h <;> cases h
      rename_i ho
      have hw : width = 32 := by simp [accessOk] at ho; exact ho.1.1
      subst hw
      exact .read off rest hp ho
    | write width off v =>
      simp only [hostAccess] at h
      split at h
      · rename_i ho
        have hw : width = 32 := by simp [accessOk] at ho; exact ho.1.1
        subst hw
        rcases hostWrite_next h with ⟨rfl, hi⟩ | ⟨r, hr, hc, rfl⟩ | ⟨hr, rfl⟩
        · exact .command v rest hp t hi
        · exact .staged off v r rest hp hr hc
        · exact .unlisted off v rest hp hr
      · cases h

end Sys2Proof.Machine
end

