-- ==== Sys2Proof/Laws/PerInstr.lean ====
section
/-! SUPPORT. The statement made per instruction: its word selects its own row of the opcode map (30_encoding.md R88). -/

namespace Sys2Proof.Laws.Selects

/-- The word of a command selects the row of the command's mnemonic, for every value of its operands (30_encoding.md R88). -/
def Statement (i : Instr) : Prop := ∃ r ∈ opcodeMap, r.name = i.mnemonic ∧ r.selects (encode i) = true

theorem nop : Statement .nop := by unfold Statement; decide

theorem load (var : BitVec 4) (rawopc : BitVec 8) : Statement (.load var rawopc) :=
  ⟨⟨.load, 0x01000000, 0xFFFF00F0⟩, by decide, rfl, beq_iff_eq.mpr (formatL_mask 0x01 rawopc var)⟩

theorem xfi (fidx : BitVec 4) : Statement (.xfi fidx) :=
  ⟨⟨.xfi, 0x10000000, 0xFFF0FFFF⟩, by decide, rfl, beq_iff_eq.mpr (formatF0_mask 0x10 fidx)⟩

theorem xfh (fidx : BitVec 4) (mindig : BitVec 5) : Statement (.xfh fidx mindig) :=
  ⟨⟨.xfh, 0x11000000, 0xFFF0FFE0⟩, by decide, rfl, beq_iff_eq.mpr (formatF_mask 0x11 fidx mindig)⟩

theorem xri (start len : BitVec 7) : Statement (.xri start len) :=
  ⟨⟨.xri, 0x12000000, 0xFF8080FF⟩, by decide, rfl, beq_iff_eq.mpr (formatR0_mask 0x12 start len)⟩

theorem xrh (start len : BitVec 7) (mindig : BitVec 5) : Statement (.xrh start len mindig) :=
  ⟨⟨.xrh, 0x13000000, 0xFF8080E0⟩, by decide, rfl, beq_iff_eq.mpr (formatR_mask 0x13 start len mindig)⟩

theorem isvalid : Statement .isvalid := by unfold Statement; decide

theorem isenc : Statement .isenc := by unfold Statement; decide

theorem isres : Statement .isres := by unfold Statement; decide

theorem tstamp : Statement .tstamp := by unfold Statement; decide

theorem tslot : Statement .tslot := by unfold Statement; decide

theorem variant : Statement .variant := by unfold Statement; decide

theorem opcode : Statement .opcode := by unfold Statement; decide

theorem alg : Statement .alg := by unfold Statement; decide

theorem keyid : Statement .keyid := by unfold Statement; decide

theorem iv : Statement .iv := by unfold Statement; decide

theorem tg : Statement .tg := by unfold Statement; decide

theorem ids : Statement .ids := by unfold Statement; decide

theorem summary : Statement .summary := by unfold Statement; decide

end Sys2Proof.Laws.Selects
end

