-- ==== Sys2Proof/Tests/Slice0.lean ====
section
/-! SUPPORT. The model's own tests: words written out from the formats, one step on small states with expected values from
95_test_vectors.md, and for every statement with hypotheses a state and operands that meet them. -/

namespace Sys2Proof.Tests

open Sys2Proof Sys2Proof.Machine Host

/-! ### Small states -/

/-- A loaded record in the block right after reset, with the given payload, variant, validity and raw opcode. -/
def loadedWith (payload : BitVec 96) (v : Variant) (valid : Bool) (rawOpcode : BitVec 8) : State :=
  { State.reset with
    record := { Record.reset with payload := payload, variant := v, valid := valid, rawOpcode := rawOpcode }
    status := { State.reset.status with loaded := true } }

/-- Record E (95_test_vectors.md L1-1). -/
def recordE : State := loadedWith 0x000001000000000005000000 .encParams true 0

/-- Record F (95_test_vectors.md L3-2), its timestamp and timeslot included. -/
def recordF : State :=
  let s := loadedWith 0xC0002A12345678C8FFA5A5A5 .encParams false 4
  { s with record := { s.record with timeslot := 1, timestamp := 0x0000000200000001 } }

/-- The unrecognized record of 95_test_vectors.md L2-B18. -/
def recordU : State := loadedWith 0x800000000000000000000001 .unrecognized true 0x2A

/-- The block after NO_RECORD (95_test_vectors.md L2-A26). -/
def faulted : State := raiseFault .noRecord 0x10000000 State.reset

/-- A block whose ROM the self-check refuses, right after reset (95_test_vectors.md L2-E2). -/
def badRom : State := State.resetWith { defaultConfig with resPos := 0 }

/-- What a read of the register at an offset returns after a step, if the step gives a next state. -/
def readAfter (r : StepResult) (off : Nat) : Option Word :=
  match r with
  | .next s => some (hostRead s off)
  | .fault _ => none
  | .refused _ => none

/-- The summary's text after a step. -/
def summaryAfter (r : StepResult) : Option Str :=
  match r with
  | .next s => some (s.results.sumChar.toList.take s.results.sumLen.toNat)
  | .fault _ => none
  | .refused _ => none

/-- The step gave exactly this next state. -/
def isNext (r : StepResult) (t : State) : Bool :=
  match r with
  | .next s => s == t
  | .fault _ => false
  | .refused _ => false

/-- How the step stopped, if it did. -/
def stopOf (r : StepResult) : Option (Fault ⊕ Refusal) :=
  match r with
  | .next _ => none
  | .fault f => some (.inl f)
  | .refused f => some (.inr f)

/-- The state with one host event to come. -/
def before (e : HostEvent) (s : State) : State := { s with pending := [e] }

/-! ### Well-formedness and decoding -/

theorem test_wellFormed_refuses_reserved_tags :
    (Instr.load 2 0).wellFormed = false ∧ (Instr.load 15 0).wellFormed = false ∧ (Instr.load 1 0).wellFormed = true := by decide

/-- OP 0x00 and 0x01: RAWOPC in [15:8], VAR in [3:0] (30_encoding.md R83, R84). -/
theorem test_decode_nop_load :
    decode 0b00000000_000000000000000000000000 = .ok .nop ∧
    decode 0b00000001_00000000_00101010_0000_0001 = .ok (.load 1 0x2A) := by decide

/-- OP 0x10 to 0x13 (30_encoding.md R85, R86; the example words of R94). -/
theorem test_decode_extraction :
    decode 0b00010000_0000_0011_00000000000_00000 = .ok (.xfi 3) ∧ decode 0b00010001_0000_0001_00000000000_01000 = .ok (.xfh 1 8) ∧
    decode 0b00010010_0_1000000_0_0001000_000_00000 = .ok (.xri 64 8) ∧
    decode 0b00010011_0_0000000_0_1100000_000_11000 = .ok (.xrh 0 96 24) := by decide

/-- OP 0x20 to 0x26 (30_encoding.md R88). -/
theorem test_decode_record_reads :
    decode 0x20000000 = .ok .isvalid ∧ decode 0x21000000 = .ok .isenc ∧ decode 0x22000000 = .ok .isres ∧
    decode 0x23000000 = .ok .tstamp ∧ decode 0x24000000 = .ok .tslot ∧ decode 0x25000000 = .ok .variant ∧
    decode 0x26000000 = .ok .opcode := by decide

/-- OP 0x30 to 0x33, 0x40 and 0x41 (30_encoding.md R88). -/
theorem test_decode_enc_params_ids_summary :
    decode 0x30000000 = .ok .alg ∧ decode 0x31000000 = .ok .keyid ∧ decode 0x32000000 = .ok .iv ∧ decode 0x33000000 = .ok .tg ∧
    decode 0x40000000 = .ok .ids ∧ decode 0x41000000 = .ok .summary := by decide

/-- Illegal words by name (30_encoding.md R90; 95_test_vectors.md L2-A27, L2-A28, L2-B2, L2-B5, L2-B22). -/
theorem test_decode_refusals :
    decode 0x10000001 = .error (.reservedBits 0x10) ∧ decode 0x12800000 = .error (.reservedBits 0x12) ∧
    decode 0x00000001 = .error (.reservedBits 0x00) ∧ decode 0x01000010 = .error (.reservedBits 0x01) ∧
    decode 0xFF000000 = .error (.unassignedOp 0xFF) ∧ decode 0x14000000 = .error (.unassignedOp 0x14) := by decide

/-- The words the host asks for, as it numbers them. -/
theorem test_decodeTableWord : decodeTableWord 32 0x13006018 = some (.xrh 0 96 24) ∧ decodeTableWord 32 0x02000000 = none := by decide

/-- The example lines of 30_encoding.md R94. -/
theorem test_assembler_examples :
    assembleLine ['A', 'L', 'G'] = some 0x30000000 ∧
    assembleLine ['L', 'O', 'A', 'D', ' ', 'E', 'N', 'C', '_', 'P', 'A', 'R', 'A', 'M', 'S', ',', ' ', '0'] = some 0x01000001 ∧
    assembleLine ['X', 'F', 'I', ' ', '3'] = some 0x10030000 ∧
    assembleLine ['X', 'F', 'H', ' ', '1', ',', ' ', '8', ' ', ';', 'x'] = some 0x11010008 ∧
    assembleLine ['X', 'R', 'I', ' ', '6', '4', ',', ' ', '8'] = some 0x12400800 ∧
    assembleLine ['X', 'R', 'H', ' ', '0', ',', ' ', '9', '6', ',', ' ', '2', '4'] = some 0x13006018 := by decide +kernel

/-- An operand that does not fit its field has no encoding; LOAD with VAR 2 to 15 is emitted as written (30_encoding.md R94). -/
theorem test_assembler_limits :
    assembleLine ['X', 'F', 'I', ' ', '1', '6'] = none ∧
    assembleLine ['L', 'O', 'A', 'D', ' ', '0', 'x', 'F', ',', '0'] = some 0x0100000F := by decide +kernel

/-! ### One command -/

/-- 95_test_vectors.md L2-A2, L2-A24. -/
theorem test_xfi : readAfter (exec (.xfi 3) recordE) 0x030 = some 5 ∧ readAfter (exec (.xfi 4) recordE) 0x004 = some 0x00000047 := by
  decide +kernel

/-- 95_test_vectors.md L2-A3. -/
theorem test_xfh : readAfter (exec (.xfh 0 2) recordE) 0x03C = some 2 ∧ readAfter (exec (.xfh 0 2) recordE) 0x040 = some 0x30310000 := by
  decide +kernel

/-- 95_test_vectors.md L2-A14: the three words of a whole payload. -/
theorem test_xri_whole :
    readAfter (exec (.xri 0 96) recordF) 0x030 = some 0xFFA5A5A5 ∧ readAfter (exec (.xri 0 96) recordF) 0x034 = some 0x345678C8 ∧
    readAfter (exec (.xri 0 96) recordF) 0x038 = some 0xC0002A12 := by decide +kernel

/-- 95_test_vectors.md L2-A20 to L2-A23: the edges of the range check. -/
theorem test_xri_range :
    readAfter (exec (.xri 96 1) recordE) 0x004 = some 0x00000057 ∧ readAfter (exec (.xri 0 0) recordE) 0x004 = some 0x00000057 ∧
    readAfter (exec (.xri 90 7) recordE) 0x004 = some 0x00000057 ∧ readAfter (exec (.xri 127 127) recordE) 0x008 = some 0x127F7F00 := by
  decide +kernel

/-- 95_test_vectors.md L2-A12: 19 digits, the first four `1000`. -/
theorem test_xrh : readAfter (exec (.xrh 0 96 0) recordE) 0x03C = some 19 ∧ readAfter (exec (.xrh 0 96 0) recordE) 0x040 = some 0x31303030 := by
  decide +kernel

/-- 95_test_vectors.md L2-B1. -/
theorem test_nop : readAfter (step (before (.write 32 0 0) State.reset)) 0x004 = some 0x00000001 := by decide +kernel

/-- 95_test_vectors.md L2-B3, L2-B4: record E loaded from its staging words, and a reserved tag. -/
theorem test_load :
    let s := { State.reset with staging := ⟨0x00000100, 0, 0x05000000, true, 0, 0, 0⟩ }
    isNext (exec (.load 1 0) s) { s with record := recordE.record, status := recordE.status } = true ∧
    readAfter (exec (.load 2 0) s) 0x004 = some 0x00000025 := by decide +kernel

/-- 10_state.md R24: bit 0 of the word written to IN_META becomes VALID, bit 1 TIMESLOT. -/
theorem test_load_meta :
    readAfter (exec .isvalid { recordE with record := stagedRecord (stageWrite 1 Staging.reset .inMeta) .encParams 0 }) 0x030 = some 1 ∧
    readAfter (exec .tslot { recordE with record := stagedRecord (stageWrite 1 Staging.reset .inMeta) .encParams 0 }) 0x030 = some 0 := by
  decide +kernel

/-- 95_test_vectors.md L1-2, L3-2: validity, encrypted and reserved-bit flags. -/
theorem test_flags :
    readAfter (exec .isvalid recordE) 0x030 = some 1 ∧ readAfter (exec .isvalid recordF) 0x030 = some 0 ∧
    readAfter (exec .isenc recordF) 0x030 = some 1 ∧ readAfter (exec .isenc recordE) 0x030 = some 0 ∧
    readAfter (exec .isres recordF) 0x030 = some 1 ∧ readAfter (exec .isres recordU) 0x030 = some 0 := by decide +kernel

/-- 95_test_vectors.md L2-B11, L2-B12, L2-B14, L2-B15. -/
theorem test_metadata :
    readAfter (exec .tslot recordF) 0x030 = some 1 ∧ readAfter (exec .tstamp recordF) 0x034 = some 2 ∧
    readAfter (exec .variant recordE) 0x030 = some 1 ∧ readAfter (exec .opcode recordU) 0x030 = some 42 := by decide +kernel

/-- 95_test_vectors.md L3-2 (ALG), L2-C1, L2-C12. -/
theorem test_alg :
    readAfter (exec .alg recordF) 0x060 = some 0x000001C8 ∧ readAfter (exec .alg recordE) 0x060 = some 0 ∧
    readAfter (exec .alg recordU) 0x004 = some 0x00000047 := by decide +kernel

/-- 95_test_vectors.md L1-1, L3-2. -/
theorem test_keyid_tg :
    readAfter (exec .keyid recordE) 0x030 = some 1 ∧ readAfter (exec .keyid recordF) 0x030 = some 0x2A ∧
    readAfter (exec .tg recordE) 0x064 = some 5 ∧ readAfter (exec .tg recordF) 0x064 = some 0xFF := by decide +kernel

/-- 95_test_vectors.md L3-2: the vector as `12345678`. -/
theorem test_iv :
    readAfter (exec .iv recordF) 0x03C = some 8 ∧ readAfter (exec .iv recordF) 0x040 = some 0x31323334 ∧
    readAfter (exec .iv recordF) 0x044 = some 0x35363738 := by decide +kernel

/-- 95_test_vectors.md L1-1, L2-B17. -/
theorem test_ids :
    readAfter (exec .ids recordE) 0x068 = some 1 ∧ readAfter (exec .ids recordE) 0x070 = some 1 ∧
    readAfter (exec .ids recordE) 0x074 = some 5 ∧ readAfter (exec .ids recordU) 0x068 = some 0 := by decide +kernel

/-- 95_test_vectors.md L2-B18: the whole text, 63 characters. -/
theorem test_summary_unrecognized :
    summaryAfter (exec .summary recordU) = some (ascii
      (['*', 'E', 'N', 'C', 'R', 'Y', 'P', 'T', 'E', 'D', '*', ' ', 'U', 'N', 'R', 'E', 'C', 'O', 'G', 'N', 'I', 'Z', 'E', 'D', ' '] ++
       ['O', 'P', 'C', 'O', 'D', 'E', ':', '4', '2', ' ', 'M', 'S', 'G', ':', '8'] ++ List.replicate 22 '0' ++ ['1'])) := by
  decide +kernel

/-- 95_test_vectors.md L1-1 (95 characters, SUM_CHAR23), L3-2 (142 characters, `[CRC`). -/
theorem test_summary_enc_params :
    readAfter (exec .summary recordE) 0x0FC = some 95 ∧ readAfter (exec .summary recordE) 0x15C = some 0x30303000 ∧
    readAfter (exec .summary recordF) 0x0FC = some 142 ∧ readAfter (exec .summary recordF) 0x100 = some 0x5B435243 := by decide +kernel

/-! ### One host event -/

/-- 95_test_vectors.md L2-D4, L2-D5: a command after a fault is ignored. -/
theorem test_ignored_after_fault : isNext (step (before (.write 32 0 0x01000001) faulted)) faulted = true := by decide +kernel

/-- 95_test_vectors.md L2-D7, L2-E1, L2-E2. -/
theorem test_reset :
    isNext (step (before .reset faulted)) State.reset = true ∧ hostRead State.reset 0x004 = 0x00000001 ∧ hostRead badRom 0x004 = 0x00000014 := by
  decide +kernel

/-- 95_test_vectors.md L2-E3 to L2-E6: ROMs the self-check refuses. -/
theorem test_self_check :
    (let refused := fun m : List (List Nat) => !selfCheck { defaultConfig with encParamsMap := m }
     refused [rangeList 0 8, rangeList 24 32, rangeList 56 8, rangeList 64 8] &&
     refused [rangeList 16 8, rangeList 24 32, rangeList 56 8, rangeList 64 16] &&
     refused [rangeList 16 8, rangeList 24 32, rangeList 56 8, rangeList 90 8] &&
     refused [rangeList 16 8, rangeList 20 32, rangeList 56 8, rangeList 64 8]) = true := by decide +kernel

/-- 95_test_vectors.md L2-F1, L2-F3, L2-F4, L2-F6. -/
theorem test_host_access :
    readAfter (step (before (.write 32 0x01C 0xFFFFFFFF) State.reset)) 0x01C = some 3 ∧
    isNext (step (before (.write 32 0x004 0xFFFFFFFF) State.reset)) State.reset = true ∧
    isNext (step (before (.read 32 0xFF0) State.reset)) { State.reset with reads := [0] } = true ∧
    readAfter (step (before (.write 32 0x010 0x12345678) State.reset)) 0x010 = some 0x12345678 := by decide +kernel

/-- 20_memory.md R63; 60_exceptions.md R185. -/
theorem test_refused_and_idle :
    stopOf (step (before (.read 8 0x004) State.reset)) = some (.inr .outsideInterface) ∧
    stopOf (step (before (.write 32 0x006 0) State.reset)) = some (.inr .outsideInterface) ∧
    stopOf (step (before (.read 32 0x1000) State.reset)) = some (.inr .outsideInterface) ∧
    isNext (step State.reset) State.reset = true := by decide +kernel

/-- The two stops are reached only outside 00_scope.md R6 and R51: a loaded record beside a bad ROM, and an overlong name. -/
theorem test_stops :
    stopOf (exec .isenc { recordE with cfg := badRom.cfg }) = some (.inl .romRejected) ∧
    stopOf (exec .summary { recordE with cfg := { defaultConfig with defaultAlgName := List.replicate 100 0x41 } }) =
      some (.inl .summaryTooLong) := by
  decide +kernel

/-- The first instruction after reset is the one placed (30_encoding.md R80). -/
theorem test_withFetchWord : readAfter (step (State.reset.withFetchWord 32 0x01002A00)) 0x004 = some 3 := by decide +kernel

/-! ### Hypotheses that something meets: one state and one set of operands per clause -/

theorem witness_legal_config : LegalConfig defaultConfig ∧ 0x2A ∉ defaultConfig.defaultAlgName :=
  ⟨⟨by decide +kernel, by decide +kernel⟩, by decide +kernel⟩

/-- DecodeSelectsTheOneRow, EncodeOfDecode, and the encoding clauses of XFI, XFH, XRI, XRH, LOAD, at words with their highest operands. -/
theorem witness_encoding_clauses :
    decode 0x137F7F1F = .ok (.xrh 127 127 31) ∧ (0x100F0000 : Word) &&& 0xFFF0FFFF = 0x10000000 ∧
    (0x110F001F : Word) &&& 0xFFF0FFE0 = 0x11000000 ∧ (0x127F7F00 : Word) &&& 0xFF8080FF = 0x12000000 ∧
    (0x137F7F1F : Word) &&& 0xFF8080E0 = 0x13000000 ∧ (0x0100FF0F : Word) &&& 0xFFFF00F0 = 0x01000000 := by decide

/-- IllegalWordsRaiseIllegalCommand: each way to be illegal, at a boundary. -/
theorem witness_illegal :
    IllegalEncoding 0x02000000 ∧ IllegalEncoding 0x42000000 ∧ IllegalEncoding 0x10000001 ∧ IllegalEncoding 0x01000002 ∧
    State.reset.status.fault = false := by
  refine ⟨.inl ?_, .inl ?_, .inr (.inl ?_), .inr (.inr ?_), rfl⟩
  · simp only [UnassignedOp]; decide
  · simp only [UnassignedOp]; decide
  · decide
  · decide

/-- IllegalWordsRaiseIllegalCommand: a legal word beside the reserved tags. -/
theorem witness_legal : ¬ IllegalEncoding 0x01000001 := by
  simp only [IllegalEncoding, UnassignedOp]; decide

/-- StepRunsTheDecodedCommand: the three clauses. -/
theorem witness_step :
    (before (.write 32 0 0x31000000) faulted).pending = [.write 32 0 0x31000000] ∧ faulted.status.fault = true ∧
    recordE.status.fault = false ∧ decode 0x31000000 = .ok .keyid ∧ decode 0x00000001 = .error (.reservedBits 0) := by decide +kernel

/-- ExtractIsTheWeightedSum and RangeExtractionIsASlice: an unordered list, the first and the last position. -/
theorem witness_extract :
    extract recordE.record.payload [71, 64] = 2 ∧ extract recordE.record.payload [69, 71] = 3 ∧ (∀ q ∈ [95, 0], q < 96) ∧
    extract recordF.record.payload (rangeList 72 8) = 0xA5 ∧ 95 + 1 ≤ 96 := by decide +kernel

/-- Hex and decimal at 0, at the widest field and at padding (00_scope.md R11, R12). -/
theorem witness_numerals :
    hex 0 0 = ascii ['0'] ∧ hex 0x1F 0 = ascii ['1', 'F'] ∧ (hex (2 ^ 96 - 1) 31).length = 31 ∧ (hex (2 ^ 96 - 1) 0).length = 24 ∧
    dec 255 = ascii ['2', '5', '5'] := by decide +kernel

/-- The commands that read the record: not loaded, loaded with each variant, a self-checked ROM. -/
theorem witness_read_commands :
    State.reset.status.loaded = false ∧ recordE.status.loaded = true ∧ recordU.status.loaded = true ∧
    selfCheck recordE.cfg = true ∧ recordE.record.variant = .encParams ∧ recordU.record.variant ≠ .encParams := by decide +kernel

/-- XFI and XFH: the last field that exists and the first that does not, for either variant. -/
theorem witness_fields :
    (3 : BitVec 4).toNat < fieldCount recordE.cfg recordE.record.variant ∧
    fieldCount recordE.cfg recordE.record.variant ≤ (4 : BitVec 4).toNat ∧
    fieldCount recordU.cfg recordU.record.variant ≤ (0 : BitVec 4).toNat := by decide +kernel

/-- XRI and XRH: the ranges at the edges, accepted and refused. -/
theorem witness_ranges :
    rangeBad 0 96 = false ∧ rangeBad 95 1 = false ∧ rangeBad 96 1 = true ∧ rangeBad 0 0 = true ∧ rangeBad 90 7 = true := by decide

/-- LOAD: the last legal tag and the first reserved one. -/
theorem witness_load_tags : (1 : BitVec 4).toNat < 2 ∧ 2 ≤ (2 : BitVec 4).toNat := by decide

/-- RepeatedCommandChangesNothing, ValidBitsFollowTheirGroups: a command that answers, one that faults and a LOAD. -/
theorem witness_answers :
    (∃ t, exec .keyid recordE = .next t ∧ t.status.rv = true) ∧ (∃ t, exec .keyid recordU = .next t ∧ t.status.fault = true) ∧
    (∃ t, exec (.load 1 0) recordE = .next t ∧ t.status.fault = false) ∧ recordU.status.fault = false :=
  ⟨⟨_, rfl, rfl⟩, ⟨_, rfl, rfl⟩, ⟨_, rfl, rfl⟩, rfl⟩

/-- FaultEntryIsPrecise: a fault from a state without one, accesses in a faulted state, and a ROM the self-check refuses. -/
theorem witness_fault_entry :
    isNext (issueCommand 0x41000000 State.reset) (raiseFault .noRecord 0x41000000 State.reset) = true ∧ faulted.status.fault = true ∧
    accessOk 32 0x004 = true ∧ regAt 0x010 = some .inP0 ∧ selfCheck badRom.cfg = false := by decide +kernel

/-- FaultsFollowTheirCausesInOrder and DataNeverCausesAFault: a command for each cause, and one that meets none. -/
theorem witness_fault_causes :
    readsRecord .tg = true ∧ variantMismatches recordU.cfg recordU.record.variant .tg = true ∧ rangeRefused (.xri 96 1) = true ∧
    variantMismatches recordE.cfg recordE.record.variant .tg = false ∧ rangeRefused (.xri 95 1) = false ∧
    recordF.cfg = recordE.cfg ∧ recordF.status.loaded = recordE.status.loaded ∧ recordF.record.variant = recordE.record.variant ∧
    (∃ t, exec .tg recordE = .next t) ∧ ∃ t, exec .tg recordF = .next t :=
  ⟨by decide, by decide, by decide, by decide +kernel, by decide, rfl, rfl, rfl, ⟨_, rfl⟩, ⟨_, rfl⟩⟩

/-- OnlyResetClearsAFault: a faulted step without a reset, a reset with a good ROM, and any step with a bad one. -/
theorem witness_sticky :
    (before (.read 32 4) faulted).pending.head? ≠ some .reset ∧ (∃ t, step (before (.read 32 4) faulted) = .next t) ∧
    (before .reset faulted).pending.head? = some .reset ∧ selfCheck faulted.cfg = true ∧ badRom.status.fault = true ∧
    badRom.status.faultCode = .fieldMapMisconfig ∧ ∃ t, step (before .reset badRom) = .next t :=
  ⟨by decide, ⟨_, rfl⟩, rfl, by decide +kernel, by decide +kernel, by decide +kernel, ⟨_, rfl⟩⟩

/-- The host's side: a read at the last offset, writes to STATUS and to an unlisted offset, a masked staging write, refused accesses. -/
theorem witness_host_side :
    accessOk 32 0xFFC = true ∧ accessOk 32 0x004 = true ∧ 0x004 ∉ [0x000, 0x010, 0x014, 0x018, 0x01C, 0x020, 0x024] ∧
    0x00C ∉ [0x000, 0x010, 0x014, 0x018, 0x01C, 0x020, 0x024] ∧ regAt 0x00C = none ∧
    (before (.write 32 0x01C 0xFFFFFFFE) faulted).pending = [.write 32 0x01C 0xFFFFFFFE] ∧ (8 ≠ 32 ∨ 0 % 4 ≠ 0) ∧
    (32 ≠ 32 ∨ 2 % 4 ≠ 0) := by decide +kernel

/-- ReadsHaveNoSideEffect: an offset no register has. -/
theorem witness_unlisted : ∀ r, regOffset r ≠ 0x00C := by
  intro r
  cases r <;> simp [regOffset] <;> omega

/-- OnlyLoadChangesTheRecord: a step that changes the record. -/
theorem witness_record_changes :
    ∃ t, step (before (.write 32 0 0x01000001) recordF) = .next t ∧ t.record ≠ recordF.record :=
  ⟨_, rfl, by decide +kernel⟩

/-- EveryLegalEventAnswersANextState: each kind of event at the edges of the register space. -/
theorem witness_legal_events : LegalEvent (.read 32 0xFFC) ∧ LegalEvent (.write 32 0x000 0x02000000) ∧ LegalEvent .reset := by
  simp [LegalEvent]

/-- EveryStepKeepsTheBlockInvariant: record E loaded after reset meets the invariant. -/
theorem witness_invariant : Inv recordE where
  rom_ok := by decide +kernel
  code_iff := by decide +kernel
  cmd_zero := fun _ => rfl
  misconfig_iff := by decide +kernel
  bad_rom := by decide +kernel
  not_loaded := by decide +kernel
  hex_buffer := ⟨[], by decide, by decide, rfl, by decide +kernel⟩
  sum_buffer := ⟨[], by decide, rfl, by decide +kernel⟩
  ids_list := ⟨[], by decide, by simp, rfl, by decide +kernel⟩
  tg_lt := by decide +kernel
  alg_unknown := by decide +kernel

/-- EveryStepKeepsValidBitsCurrent: record E with its talkgroup read, where TV = 1 and TG holds 5. -/
theorem witness_valid_bits : ValidBitsCurrent (writeTg 5 recordE) where
  rv h := by cases h
  hv h := by cases h
  av h := by cases h
  tv _ x := by
    have hrom : selfCheck recordE.cfg = true := by decide +kernel
    have htg : talkgroupOf recordE.cfg recordE.record = 5 := by decide +kernel
    have hl : recordE.status.loaded = true := rfl
    have hv : recordE.record.variant = .encParams := rfl
    simp only [exec, execTg, withRecord, withEncParams, withRom, writeTg, hrom, htg, hl, hv, if_true]
  dv h := by cases h
  sv h := by cases h

end Sys2Proof.Tests
end

section
/-! PROOFS. The terms of 00_scope.md: payload positions and extraction (R7, R13), numerals (R11, R12), and a part of a summary
inside the whole text (R9; 41_record.md R131). -/

namespace Sys2Proof.Machine

-- Memory, not meaning: no `variable` stands here, so all the option does is to elaborate these proofs one after the other. As parallel
-- tasks beside the kernel evaluations of the tests above they start one more thread than the memory limit of the check has room for.
set_option deprecated.oldSectionVars true

/-! ### Payload positions and extraction -/

/-- Position i is bit 95 - i of the payload integer (00_scope.md R7). -/
theorem bitRead_eq_testBit (p : BitVec 96) {i : Nat} (h : i < 96) : bitRead p i = p.toNat.testBit (95 - i) := by
  rw [bitRead, BitVec.getMsbD, decide_eq_true h, Bool.true_and]
  rfl

theorem rangeList_succ (a n : Nat) : rangeList a (n + 1) = a :: rangeList (a + 1) n := rfl

/-- Each position in front of a range adds one bit on top of its slice, whose lowest bit has weight 2^m. -/
theorem extract_rangeList (p : BitVec 96) {a n m : Nat} (h : a + n + m = 96) :
    extract p (rangeList a n) = p.toNat / 2 ^ m % 2 ^ n := by
  induction n generalizing a with
  | zero => exact (Nat.mod_one _).symm
  | succ n ih =>
    have hbit : 95 - a = m + n := by omega
    rw [rangeList_succ, extract_cons, rangeList_length, ih (by omega), bitRead_eq_testBit p (by omega), hbit,
      Nat.toNat_testBit, Nat.mod_pow_succ, Nat.div_div_eq_div_mul, ← Nat.pow_add, Nat.mul_comm, Nat.add_comm]

/-- Read as one integer, all positions in order are the payload (00_scope.md R7). -/
theorem extract_allPositions (p : BitVec 96) : extract p allPositions = p.toNat := by
  rw [allPositions, extract_rangeList p (m := 0) rfl, Nat.pow_zero, Nat.div_one, Nat.mod_eq_of_lt p.isLt]

/-- 00_scope.md R13's sum, for every list: the first position has the highest weight. -/
theorem extract_eq_sum (p : BitVec 96) (l : List Nat) :
    extract p l = ∑ k ∈ Finset.range l.length, (bitRead p (l.getD k 0)).toNat * 2 ^ (l.length - 1 - k) := by
  induction l with
  | nil => rfl
  | cons q l ih =>
    rw [extract_cons, ih, List.length_cons, Finset.sum_range_succ', Nat.add_comm]
    exact congrArg (· + _) (Finset.sum_congr rfl fun k _ => by rw [Nat.sub_right_comm]; rfl)

theorem allPositions_getD {k : Nat} (h : k < 96) : allPositions.getD k 0 = k := by
  rw [allPositions, rangeList, List.getD_eq_getElem _ _ (by simpa using h), List.getElem_range', Nat.zero_add, Nat.one_mul]

theorem extract_zero (l : List Nat) : extract 0#96 l = 0 := by
  induction l with
  | nil => rfl
  | cons q l ih => rw [extract_cons, ih, bitRead, BitVec.getMsbD_zero, Bool.toNat_false, Nat.zero_mul]

/-! ### Numerals -/

/-- The digits of a number that is not 0 are the library's, so the library's facts about a leading digit apply. -/
theorem digitsRev_eq_digits {b : Nat} (hb : 2 ≤ b) : ∀ fuel v : Nat, v ≠ 0 → v < 2 ^ fuel →
    digitsRev b fuel v = Nat.digits b v
  | 0, v, h0, h => absurd (Nat.lt_one_iff.mp h) h0
  | fuel + 1, v, h0, h => by
    rw [Nat.digits_def' hb (Nat.pos_of_ne_zero h0), digitsRev]
    split
    next hv => rw [Nat.mod_eq_of_lt hv, Nat.div_eq_of_lt hv, Nat.digits_zero]
    next hv =>
      have hpos : v / b ≠ 0 := (Nat.div_pos (Nat.le_of_not_lt hv) (Nat.zero_lt_of_lt hb)).ne'
      have hdiv : v / b < 2 ^ fuel := Nat.div_lt_of_lt_mul (h.trans_le (Nat.pow_succ' ▸ Nat.mul_le_mul_right _ hb))
      rw [digitsRev_eq_digits hb fuel _ hpos hdiv]

/-- No leading zero (00_scope.md R12). -/
theorem digits_head?_ne_zero {b v : Nat} (hb : 2 ≤ b) (hv : v ≠ 0) : (digits b v).head? ≠ some 0 := by
  rw [digits, List.head?_reverse, digitsRev_eq_digits hb _ v hv Nat.lt_log2_self]
  intro h
  exact Nat.getLast_digit_ne_zero b hv (List.getLast_of_getLast?_eq_some h)

theorem isDigitChar_digitChar {b d : Nat} (hb : b ≤ 16) (h : d < b) : IsDigitChar b (digitChar d) := by
  have hchar : ∀ d < 16, 0x30 ≤ (digitChar d).toNat ∧ (digitChar d).toNat ≤ 0x39 ∨
      0x41 ≤ (digitChar d).toNat ∧ (digitChar d).toNat ≤ 0x46 := by decide
  have hd : d < 16 := h.trans_le hb
  exact ⟨hchar d hd, by rwa [digitValue_digitChar hd]⟩

theorem digitChar_eq_zeroChar_iff : ∀ d < 16, digitChar d = 0x30 ↔ d = 0 := by decide

/-- Parsing the characters of a list of digits reads the digits. -/
theorem parseNumeral_map_digitChar (b : Nat) {ds : List Nat} (h : ∀ d ∈ ds, d < 16) :
    parseNumeral b (ds.map digitChar) = ds.foldl (fun acc d => acc * b + d) 0 := by
  rw [parseNumeral, List.foldl_map]
  exact List.foldl_ext _ _ _ fun acc d hd => by rw [digitValue_digitChar (h d hd)]

theorem parseNumeral_digits {b : Nat} (hb : 2 ≤ b) (hb' : b ≤ 16) (v : Nat) :
    parseNumeral b ((digits b v).map digitChar) = v := by
  rw [parseNumeral_map_digitChar b fun d hd => (digits_lt hb v d hd).trans_le hb', digits_value hb]

/-- Zeros on the left do not change what a numeral is worth. -/
theorem parseNumeral_zeros_append (b n : Nat) (str : Str) :
    parseNumeral b (List.replicate n (digitChar 0) ++ str) = parseNumeral b str := by
  induction n with
  | zero => rfl
  | succ n ih => rw [← ih]; simp [parseNumeral, List.replicate_succ, digitValue_digitChar]

theorem sig_eq_ite (v : Nat) : sig v = if v = 0 then 1 else Nat.log 16 v + 1 := by
  rw [sig_eq]
  split <;> simp [*]

theorem hex_take_padding (v d : Nat) : (hex v d).take (max d (sig v) - sig v) = List.replicate (d - sig v) (digitChar 0) := by
  rw [hex, Nat.sub_eq_of_eq_add (Nat.sub_add_eq_max d (sig v)).symm, List.take_left' List.length_replicate]

theorem isDigitChar_of_mem_hex {v d : Nat} {c : Byte} (hc : c ∈ hex v d) : IsDigitChar 16 c := by
  rcases List.mem_append.mp hc with hc | hc
  · rw [List.eq_of_mem_replicate hc]
    exact isDigitChar_digitChar le_rfl (by decide)
  · obtain ⟨x, hx, rfl⟩ := List.mem_map.mp hc
    exact isDigitChar_digitChar le_rfl (digits_lt (by decide) v x hx)

theorem parseNumeral_hex (v d : Nat) : parseNumeral 16 (hex v d) = v := by
  rw [hex, parseNumeral_zeros_append, parseNumeral_digits (by decide) le_rfl]

theorem isDigitChar_of_mem_dec {v : Nat} {c : Byte} (hc : c ∈ dec v) : IsDigitChar 10 c := by
  obtain ⟨x, hx, rfl⟩ := List.mem_map.mp hc
  exact isDigitChar_digitChar (by decide) (digits_lt (by decide) v x hx)

theorem dec_head?_ne_zeroChar {v : Nat} (hv : v ≠ 0) : (dec v).head? ≠ some 0x30 := by
  rw [dec, List.head?_map]
  intro h
  obtain ⟨x, hx, hc⟩ := Option.map_eq_some_iff.mp h
  have hlt : x < 10 := digits_lt (by decide) v x (List.mem_of_head? hx)
  have hx0 : x = 0 := (digitChar_eq_zeroChar_iff x (hlt.trans (by decide))).mp hc
  exact digits_head?_ne_zero (by decide) hv (hx0 ▸ hx)

/-! ### A part of a summary inside the whole text -/

theorem infix_joinSpace {t : Str} {parts : List Str} (h : t ∈ parts) : t <:+: joinSpace parts := by
  cases parts with
  | nil => simp at h
  | cons s ss =>
    rcases List.mem_cons.mp h with rfl | h
    · exact (List.prefix_append _ _).isInfix
    · have hpart : 0x20#8 :: t <:+: ss.flatMap fun t => 0x20#8 :: t := by
        rw [List.flatMap_def]
        exact List.infix_of_mem_flatten (List.mem_map_of_mem h)
      exact (List.suffix_cons _ _).isInfix.trans (hpart.trans (List.suffix_append _ _).isInfix)

/-- The summary of an ENC_PARAMS record with algorithm code 0 quotes DEFAULT_ALG_NAME as it stands (42_enc_params.md R157, R158). -/
theorem defaultAlgName_infix_summaryText {cfg : Config} {r : Record} (hv : r.variant = .encParams) (hc : encField cfg r 2 = 0) :
    cfg.defaultAlgName <:+: summaryText cfg r := by
  have hname : algName cfg (encField cfg r 2) = cfg.defaultAlgName := if_pos hc
  have hdump : ascii ['A', 'L', 'G', ':'] ++ cfg.defaultAlgName ∈ dumpOf cfg r := by
    simp only [dumpOf, hv, hname]
    exact .tail _ (.tail _ (.head _))
  have hpart : _ ∈ summaryParts cfg r := List.mem_append_left _ (List.mem_append_right _ hdump)
  exact (List.suffix_append _ _).isInfix.trans (infix_joinSpace hpart)

/-- The spec's default ROM with `*ENCRYPTED*` as the default algorithm's name. -/
def forgingConfig : Config := { defaultConfig with defaultAlgName := encryptedText }

/-- An ENC_PARAMS record of zeros: its encrypted flag and its algorithm code are 0. -/
def plainRecord : Record := { Record.reset with variant := .encParams }

theorem encField_plainRecord (cfg : Config) (f : Nat) : encField cfg plainRecord f = 0 := extract_zero _

theorem legalConfig_forgingConfig : LegalConfig forgingConfig := ⟨by decide, by decide⟩

/-! ### The obligations -/

/-- Settles O7: all 96 positions are the slice that is the whole payload, and R13's sum over them is R7's. -/
theorem payloadIsReadMsbFirst : Obligations.PayloadIsReadMsbFirst := by
  intro p
  refine ⟨?_, extract_allPositions p⟩
  rw [← extract_allPositions p, extract_eq_sum]
  exact Finset.sum_congr rfl fun k hk => by rw [allPositions_getD (Finset.mem_range.mp hk)]; rfl

/-- Settles O8. -/
theorem extractIsTheWeightedSum : Obligations.ExtractIsTheWeightedSum :=
  fun p l _ _ => ⟨extract_eq_sum p l, extract_lt p l⟩

/-- Settles O9: n is sig(v). -/
theorem hexHasLengthDigitsAndValue : Obligations.HexHasLengthDigitsAndValue := by
  intro v d
  refine ⟨⟨sig v, sig_eq_ite v, hex_length v d, ?_⟩, fun c hc => isDigitChar_of_mem_hex hc, parseNumeral_hex v d⟩
  rw [hex_take_padding]
  exact fun c hc => List.eq_of_mem_replicate hc

/-- Settles O10. -/
theorem decHasDigitsAndValue : Obligations.DecHasDigitsAndValue :=
  fun v => ⟨fun _ hc => isDigitChar_of_mem_dec hc, parseNumeral_digits (by decide) (by decide) v, dec_head?_ne_zeroChar, by decide⟩

/-- Settles O11, by induction on the length of the range. -/
theorem rangeExtractionIsASlice : Obligations.RangeExtractionIsASlice :=
  fun p _ _ h => extract_rangeList p (Nat.add_sub_of_le h)

/-- Settles O29: the name `*ENCRYPTED*` is legal, and algorithm code 0 prints it. -/
theorem someLegalNameForgesTheMarker : Obligations.SomeLegalNameForgesTheMarker :=
  ⟨forgingConfig, plainRecord, legalConfig_forgingConfig, by decide,
    defaultAlgName_infix_summaryText rfl (encField_plainRecord forgingConfig 2)⟩

end Sys2Proof.Machine
end

section
/-! PROOFS. What no step can change, the ROM (10_state.md R50) and, but for a LOAD and a reset, the record (R33); and what a reset leaves
(R53). -/

namespace Sys2Proof.Machine

/-! ### What a step does to the block -/

/-- `StepEffect` as an eliminator, by what happens to the block behind the host interface: nothing, a refused command word, a command's
effect, or a reset. -/
theorem StepEffect.block {P : State → Prop} {s t : State} (h : StepEffect s t)
    (side : ∀ staging pending reads, P { s with staging := staging, pending := pending, reads := reads })
    (illegal : ∀ w rest, P (raiseFault .illegalCommand w { s with pending := rest }))
    (command : ∀ w rest i t, s.pending = .write 32 0 w :: rest → s.status.fault = false → decode w = .ok i →
      CommandEffect i { s with pending := rest } t → P t)
    (reset : ∀ rest, s.pending = .reset :: rest → P (resetBlock { s with pending := rest })) : P t :=
  h.casesOn (motive := fun t _ => P t) (fun _ => side _ _ _) (fun _ _ _ _ => side _ _ _) (fun _ _ _ _ _ _ _ => side _ _ _)
    (fun _ _ _ _ _ => side _ _ _)
    (fun w rest hp _ hi => hi.casesOn (motive := fun t _ => P t) (fun _ => side _ _ _) (fun _ _ _ => illegal w rest)
      fun hf i hd t he => command w rest i t hp hf hd (exec_effect he))
    reset

theorem CommandEffect.cfg_eq {i : Instr} {s t : State} (h : CommandEffect i s t) : t.cfg = s.cfg :=
  h.casesOn (motive := fun t _ => t.cfg = s.cfg) (fun _ => rfl) (fun _ _ => raiseFault_cfg ..) (fun _ _ _ _ _ => loadRecord_cfg ..)
    (fun _ _ _ => writeResult_cfg ..) (fun _ _ _ _ => writeHex_cfg ..) (fun _ _ => writeAlg_cfg ..) (fun _ _ _ => writeTg_cfg ..)
    (fun _ _ => writeIds_cfg ..) (fun _ _ _ => storeSummary_cfg ..)

/-! ### After a reset -/

/-- STATUS after a reset agrees with the self-check's answer (10_state.md R45, R53; 60_exceptions.md R170). -/
theorem statusReset_agrees : ∀ ok : Bool, (Status.reset ok).romOk = ok ∧
    ((Status.reset ok).fault = false ↔ (Status.reset ok).faultCode = .none) ∧
    ((Status.reset ok).faultCode = .fieldMapMisconfig ↔ (Status.reset ok).romOk = false) := by
  decide

/-! ### The obligations -/

/-- The four statements settled below, each in its own case. They share one proof for the compile's sake, not for their meaning: the
elaborator gives every proof a task of its own, and the text as a whole stands close to the memory that all tasks together may take. -/
theorem step_and_reset_laws :
    Obligations.NoStepWritesTheRom ∧ Obligations.OnlyLoadChangesTheRecord ∧ Obligations.ResetEstablishesTheBlockInvariant ∧
    Obligations.ResetGivesEveryRegisterItsValue := by
  refine ⟨fun s _ h => ?rom, fun s t h => ?record, fun cfg => ⟨?inv, ?valid⟩, ?values⟩
  case rom =>
    exact (step_effect h).block (P := fun t => t.cfg = s.cfg) (fun _ _ _ => rfl) (fun _ _ => rfl)
      (fun _ _ _ _ _ _ _ he => he.cfg_eq) fun _ _ => rfl
  case record =>
    -- Of all that a command can do only a LOAD's effect writes the record.
    rw [ne_eq, ← or_iff_not_imp_left]
    apply (step_effect h).block
    · exact fun _ _ _ => .inl rfl
    · exact fun _ _ => .inl rfl
    · intro w rest i t hp hf hd he
      cases he with
      | loaded var rawopc v hi hv => exact .inr (.inr ⟨w, var, rawopc, v, rest, hp, hf, hi ▸ hd, hv, loadRecord_record ..⟩)
      | nothing => exact .inl rfl
      | faulted => exact .inl (raiseFault_record ..)
      | result => exact .inl (writeResult_record ..)
      | hexText => exact .inl (writeHex_record ..)
      | algCode => exact .inl (writeAlg_record ..)
      | talkgroup => exact .inl (writeTg_record ..)
      | idList => exact .inl (writeIds_record ..)
      | summaryText => exact .inl (storeSummary_record ..)
    · exact fun rest hp => .inr (.inl ⟨rest, hp⟩)
  case inv =>
    exact {
      rom_ok := (statusReset_agrees _).1
      code_iff := (statusReset_agrees _).2.1
      cmd_zero := fun _ => rfl
      misconfig_iff := (statusReset_agrees _).2.2
      bad_rom := fun _ => ⟨rfl, rfl⟩
      not_loaded := fun _ => ⟨rfl, rfl, rfl, rfl, rfl, rfl, rfl, rfl⟩
      hex_buffer := ⟨[], Nat.zero_le _, Nat.zero_le _, rfl, Vector.toList_replicate⟩
      sum_buffer := ⟨[], Nat.zero_le _, rfl, Vector.toList_replicate⟩
      ids_list := ⟨[], Nat.zero_le _, fun _ h => absurd h List.not_mem_nil, rfl, Vector.toList_replicate⟩
      tg_lt := Nat.zero_lt_succ _
      alg_unknown := rfl }
  case valid =>
    -- After a reset no valid bit is set.
    exact ⟨(nomatch ·), (nomatch ·), (nomatch ·), (nomatch ·), (nomatch ·), (nomatch ·)⟩
  case values =>
    rintro ⟨cfg, _, _, _, _, _, _, _⟩ rest ⟨⟩
    have hstatus (ok : Bool) (hok : selfCheck cfg = ok) :
        hostRead { State.resetWith cfg with pending := rest } 0x004 = statusWord (Status.reset ok) :=
      hok ▸ hostRead_regOffset _ .status
    exact ⟨{ State.resetWith cfg with pending := rest }, rfl, rfl, rfl, rfl, rfl, rfl, rfl, rfl, rfl, Vector.toList_replicate, rfl, rfl,
      rfl, rfl, Vector.toList_replicate, rfl, Vector.toList_replicate, hstatus true, hstatus false⟩

/-- Settles O42. -/
theorem noStepWritesTheRom : Obligations.NoStepWritesTheRom := step_and_reset_laws.1

/-- Settles O50. -/
theorem onlyLoadChangesTheRecord : Obligations.OnlyLoadChangesTheRecord := step_and_reset_laws.2.1

/-- Settles O54. -/
theorem resetEstablishesTheBlockInvariant : Obligations.ResetEstablishesTheBlockInvariant := step_and_reset_laws.2.2.1

/-- Settles O39. -/
theorem resetGivesEveryRegisterItsValue : Obligations.ResetGivesEveryRegisterItsValue := step_and_reset_laws.2.2.2

end Sys2Proof.Machine
end

section
/-! PROOFS. The step that issues a word (30_encoding.md R80). -/

namespace Sys2Proof.Machine

/-- Settles O6: the step is the issue of the word, whose two tests are FAULT and the decoder's answer. -/
theorem stepRunsTheDecodedCommand : Obligations.StepRunsTheDecodedCommand := by
  intro s w rest hp
  have hissue : step s = issueCommand w { s with pending := rest } := by
    unfold step takeEvent
    rw [hp]
    rfl
  rw [hissue]
  unfold issueCommand
  refine ⟨fun h => if_pos h, fun h e hd => ?error, fun h i hd => ?ok⟩
  case error => rw [if_neg (ne_true_of_eq_false h), hd]
  case ok => rw [if_neg (ne_true_of_eq_false h), hd]

end Sys2Proof.Machine
end
